-- ==== Sys2Proof/Word.lean ====
section
/-! DEFINITION. The plain value types of the block: bytes, pin identifiers, levels (00_scope.md R8 to R12). -/

namespace Sys2Proof

/-- A segment bitmap cell, "one byte" whatever `DP` is (R21, R75); bit 0 is the least significant (R12). -/
abbrev Byte := BitVec 8

/-- A pin identifier: opaque, with decidable equality, of no stated width (R10). DESIGN CHOICE: a natural (log 9). -/
abbrev PinId := Nat

/-- The two levels of an output line (R8, R9). -/
inductive Level where
  | high
  | low
  deriving DecidableEq, Repr

/-- `not H = L` and `not L = H` (R9). -/
def Level.flip : Level → Level
  | .high => .low
  | .low => .high

end Sys2Proof
end

