-- ==== Sys2Proof/Config.lean ====
section
/-! DEFINITION. What is fixed for one instance (its construction parameters) and the free values. -/

namespace Sys2Proof

/-- The construction parameters of one instance (00_scope.md R8) and the glyph table, which the spec makes an
argument of the model too (R11, R79). They are fields of the state, so every statement about all states is a
statement about all parameters. -/
structure Params where
  /-- `N`, the number of digits. -/
  digits : Nat
  /-- `DP`, decimal-point support. -/
  decimalPoint : Bool
  /-- `DIGIT_ON`, the level that energizes a digit line. -/
  digitOn : Level
  /-- `SEG_ON`, the level that lights a segment. -/
  segmentOn : Level
  /-- `GLYPH[0..15]`, "sixteen entries of seven bits each" (R79): bit 7 of every entry is 0 by the type. -/
  glyphs : List (BitVec 7)
  deriving DecidableEq, Repr

/-- `S`, the number of segment lines: "length 7 or 8 depending on decimal-point support" (R9). -/
def Params.segments (p : Params) : Nat := if p.decimalPoint then 8 else 7

/-- The free value of the `n`-th read of the scratch cell: a draw, any byte (10_state.md R30, 20_memory.md R53;
log 5). It has no body, so nothing can be proved of its value. -/
opaque Config.freeByte : Nat → Byte

end Sys2Proof
end

