-- ==== Sys2Proof/Syntax.lean ====
section
/-! DEFINITION. The eleven operations, one constructor per row of opcode_table.json (30_encoding.md R87),
with the operands of R86 as fields. -/

namespace Sys2Proof

/-- An operation with its operands. "A model represents an operation as a constructor of an inductive type with
the operands as fields" (R85). -/
inductive Instr where
  /-- READ, op 0 (R101). -/
  | read (pos : Nat)
  /-- WRITE, op 1 (R102). -/
  | write (pos : Nat) (bitmap : Byte)
  /-- DA_READ, op 2: `directAccess(pos)` used to read (R104). -/
  | daRead (pos : Nat)
  /-- DA_WRITE, op 3: `directAccess(pos)` used to write (R105). -/
  | daWrite (pos : Nat) (bitmap : Byte)
  /-- INITIALIZE, op 4 (R116). -/
  | initializeEngine (digitPins segmentPins : List PinId) (startBlanked : Bool)
  /-- ADVANCE_TO_DIGIT, op 5 (R118). -/
  | advanceToDigit (target : Nat)
  /-- ADVANCE, op 6 (R126): what a tick invokes. -/
  | advance
  /-- SET_BLANK, op 7 (R127). -/
  | setBlank (flag : Bool)
  /-- IS_BLANK, op 8 (R128). -/
  | isBlank
  /-- DIGIT_TO_BITMAP, op 9 (R141); an omitted `decimalPoint` is false (R90). -/
  | digitToBitmap (value : Nat) (decimalPoint : Bool)
  /-- VALUE_TO_DISPLAY, op 10 (R145); `none` is the omitted decimal-point position (R90, R144). -/
  | valueToDisplay (value radix : Nat) (showLeadingZeros : Bool) (decimalPointPosition : Option Nat)
  deriving DecidableEq, Repr

end Sys2Proof
end

