-- ==== Sys2Proof/WellFormed.lean ====
section
/-! DEFINITION. Which operations have legal operands for an instance (30_encoding.md R86, R88). An operation that is
not well-formed still has the outcome its rule gives it (a refusal by name). -/

namespace Sys2Proof

/-- What can be wrong with an operation's operands, whatever the state is. -/
inductive OperandProblem where
  /-- `read` with `pos >= N`: "not a valid operation" (R88, R101). -/
  | readPosition
  /-- A pin list whose length is not `N`, not `S` (R88, R116). -/
  | pinListLength
  /-- A pin identifier that occurs twice in the `N + S` entries (R88, R116). -/
  | repeatedPin
  /-- A radix below 2 (R88, R150). -/
  | radixBelowTwo
  deriving DecidableEq, Repr

/-- The first problem of an operation's operands on an instance with parameters `p`, if there is one. -/
def Instr.problem (p : Params) : Instr → Option OperandProblem
  | .read pos => if pos < p.digits then none else some .readPosition
  | .write _ _ => none
  | .daRead _ => none
  | .daWrite _ _ => none
  | .initializeEngine dp sp _ =>
    if dp.length ≠ p.digits ∨ sp.length ≠ p.segments then some .pinListLength
    else if (dp ++ sp).Nodup then none
    else some .repeatedPin
  | .advanceToDigit _ => none
  | .advance => none
  | .setBlank _ => none
  | .isBlank => none
  | .digitToBitmap _ _ => none
  | .valueToDisplay _ radix _ _ => if radix < 2 then some .radixBelowTwo else none

/-- The operands are legal for an instance with parameters `p`. Out-of-range positions of `write`, `directAccess` and
`advanceToDigit`, and a digit value above 15, are legal: R88 gives each a defined outcome. -/
def Instr.wellFormed (p : Params) (i : Instr) : Bool := (i.problem p).isNone

end Sys2Proof
end

