-- ==== Sys2Proof/Decode.lean ====
section
/-! DEFINITION. Call records: a byte encoding of the operations, its decoder (total, rejecting by name) and its encoder.
The spec defines no binary encoding (30_encoding.md R85); of a record only the ordinal in bits [3:0] of the first byte is
the spec's own numbering (R87, opcode_table.json). Everything else here is a DESIGN CHOICE (log 1):
first byte = ordinal in bits [3:0], bits [7:4] zero; then the operands in the order of R86; a natural in groups of seven
bits, least significant first, bit 7 set on every group but the last, no superfluous last group; a byte as itself; a
boolean as 0 or 1; a list as its length and its elements; an omitted operand as 0, a given one as 1 and the operand. -/

namespace Sys2Proof

/-- Why a record is no call. -/
inductive DecodeError where
  /-- The record ends before the operation is complete (an empty record among them). -/
  | truncated
  /-- The ordinal is 11 to 15: R87 numbers eleven operations, 0 to 10. -/
  | reservedOrdinal (op : Nat)
  /-- Bits [7:4] of the first byte are not zero. -/
  | reservedBits
  /-- A natural with a superfluous last group. -/
  | overlongNatural
  /-- A boolean byte above 1. -/
  | badBoolean
  /-- Bytes are left after the operation's last operand. -/
  | trailingBytes
  deriving DecidableEq, Repr

/-- What a reader of part of a record answers: the value and the bytes after it, or why not. -/
abbrev Read (α : Type) := Except DecodeError (α × List Byte)

/-- Read on from what an earlier part left. -/
def followedBy {α β : Type} (r : Read α) (next : α → List Byte → Read β) : Read β :=
  match r with
  | .error e => .error e
  | .ok (a, rest) => next a rest

/-! ### The decoder -/

/-- One byte. -/
def takeByte : List Byte → Read Byte
  | [] => .error .truncated
  | b :: bs => .ok (b, bs)

/-- A boolean. -/
def takeBool : List Byte → Read Bool
  | [] => .error .truncated
  | b :: bs =>
    if b = 0x00#8 then .ok (false, bs)
    else if b = 0x01#8 then .ok (true, bs)
    else .error .badBoolean

/-- A natural. -/
def takeNat : List Byte → Read Nat
  | [] => .error .truncated
  | b :: bs =>
    if b.toNat < 128 then .ok (b.toNat, bs)
    else
      match takeNat bs with
      | .error e => .error e
      | .ok (high, rest) =>
        if high = 0 then .error .overlongNatural
        else .ok (b.toNat - 128 + 128 * high, rest)

/-- `count` naturals. -/
def takeNats : Nat → List Byte → Read (List Nat)
  | 0, bs => .ok ([], bs)
  | count + 1, bs =>
    followedBy (takeNat bs) fun n bs =>
    followedBy (takeNats count bs) fun ns bs => .ok (n :: ns, bs)

/-- A list of pin identifiers: its length, then its elements. -/
def takePins (bs : List Byte) : Read (List PinId) :=
  followedBy (takeNat bs) takeNats

/-- An operand that may be omitted. -/
def takeOptional (bs : List Byte) : Read (Option Nat) :=
  followedBy (takeBool bs) fun given bs =>
  if given then followedBy (takeNat bs) fun n bs => .ok (some n, bs)
  else .ok (none, bs)

/-- The operands of the operation with ordinal `op` (R87). -/
def decodeOperands (op : Nat) (bs : List Byte) : Read Instr :=
  match op with
  | 0 =>
    followedBy (takeNat bs) fun pos bs => .ok (.read pos, bs)
  | 1 =>
    followedBy (takeNat bs) fun pos bs =>
    followedBy (takeByte bs) fun bitmap bs => .ok (.write pos bitmap, bs)
  | 2 =>
    followedBy (takeNat bs) fun pos bs => .ok (.daRead pos, bs)
  | 3 =>
    followedBy (takeNat bs) fun pos bs =>
    followedBy (takeByte bs) fun bitmap bs => .ok (.daWrite pos bitmap, bs)
  | 4 =>
    followedBy (takePins bs) fun digitPins bs =>
    followedBy (takePins bs) fun segmentPins bs =>
    followedBy (takeBool bs) fun startBlanked bs => .ok (.initializeEngine digitPins segmentPins startBlanked, bs)
  | 5 =>
    followedBy (takeNat bs) fun target bs => .ok (.advanceToDigit target, bs)
  | 6 => .ok (.advance, bs)
  | 7 =>
    followedBy (takeBool bs) fun flag bs => .ok (.setBlank flag, bs)
  | 8 => .ok (.isBlank, bs)
  | 9 =>
    followedBy (takeNat bs) fun value bs =>
    followedBy (takeBool bs) fun decimalPoint bs => .ok (.digitToBitmap value decimalPoint, bs)
  | 10 =>
    followedBy (takeNat bs) fun value bs =>
    followedBy (takeNat bs) fun radix bs =>
    followedBy (takeBool bs) fun showLeadingZeros bs =>
    followedBy (takeOptional bs) fun dpPos bs => .ok (.valueToDisplay value radix showLeadingZeros dpPos, bs)
  | op => .error (.reservedOrdinal op)

/-- One operation from the front of some bytes, and the bytes after it. -/
def decodeCall : List Byte → Read Instr
  | [] => .error .truncated
  | b :: bs =>
    if b.toNat / 16 = 0 then decodeOperands (b.toNat % 16) bs
    else .error .reservedBits

/-- A whole record: one operation and nothing after it. -/
def decodeRecord (bytes : List Byte) : Except DecodeError Instr :=
  match decodeCall bytes with
  | .error e => .error e
  | .ok (i, []) => .ok i
  | .ok (_, _ :: _) => .error .trailingBytes

/-! ### The words of opcode_table.json -/

/-- The bytes of an instruction whose first bits are `w`, numbered as the table numbers them (bit 0 the least significant
of the first byte), followed by zero bytes: the table gives operands no bits. -/
def tableBytes (nbits w : Nat) : List Byte :=
  (List.range ((nbits + 7) / 8)).map (fun k => BitVec.ofNat 8 (w / 2 ^ (8 * k))) ++ List.replicate 16 0x00#8

/-- The operation the decoder reads from a table word. -/
def decodeTableWord (nbits w : Nat) : Option Instr :=
  match decodeCall (tableBytes nbits w) with
  | .ok (i, _) => some i
  | .error _ => none

/-- The record of a table word: just the bytes its operation takes, or all the bytes where they decode to none. -/
def tableRecord (nbits w : Nat) : List Byte :=
  match decodeCall (tableBytes nbits w) with
  | .ok (_, rest) => (tableBytes nbits w).take ((tableBytes nbits w).length - rest.length)
  | .error _ => tableBytes nbits w

/-! ### The encoder -/

/-- A natural, in at most `fuel + 1` groups. -/
def putNatFuel : Nat → Nat → List Byte
  | 0, n => [BitVec.ofNat 8 (n % 128)]
  | fuel + 1, n =>
    if n < 128 then [BitVec.ofNat 8 n]
    else BitVec.ofNat 8 (128 + n % 128) :: putNatFuel fuel (n / 128)

/-- A natural: `n` groups are enough for `n`. -/
def putNat (n : Nat) : List Byte := putNatFuel n n

/-- A boolean. -/
def putBool (b : Bool) : List Byte := if b then [0x01#8] else [0x00#8]

/-- A list of pin identifiers. -/
def putPins (ps : List PinId) : List Byte := putNat ps.length ++ ps.flatMap putNat

/-- An operand that may be omitted. -/
def putOptional : Option Nat → List Byte
  | none => putBool false
  | some n => putBool true ++ putNat n

/-- The ordinal of an operation (R87). -/
def Instr.ordinal : Instr → Nat
  | .read _ => 0
  | .write _ _ => 1
  | .daRead _ => 2
  | .daWrite _ _ => 3
  | .initializeEngine _ _ _ => 4
  | .advanceToDigit _ => 5
  | .advance => 6
  | .setBlank _ => 7
  | .isBlank => 8
  | .digitToBitmap _ _ => 9
  | .valueToDisplay _ _ _ _ => 10

/-- The operand bytes of an operation. -/
def encodeOperands : Instr → List Byte
  | .read pos => putNat pos
  | .write pos bitmap => putNat pos ++ [bitmap]
  | .daRead pos => putNat pos
  | .daWrite pos bitmap => putNat pos ++ [bitmap]
  | .initializeEngine dp sp startBlanked => putPins dp ++ putPins sp ++ putBool startBlanked
  | .advanceToDigit target => putNat target
  | .advance => []
  | .setBlank flag => putBool flag
  | .isBlank => []
  | .digitToBitmap value decimalPoint => putNat value ++ putBool decimalPoint
  | .valueToDisplay value radix zeros dpPos => putNat value ++ putNat radix ++ putBool zeros ++ putOptional dpPos

/-- The record of an operation. -/
def encode (i : Instr) : List Byte := BitVec.ofNat 8 i.ordinal :: encodeOperands i

end Sys2Proof
end

