-- ==== Sys2Proof/Machine/Parameters.lean ====
section
/-! DEFINITION. Constants derived from the construction parameters, the default glyph table and configuration A. -/

namespace Sys2Proof

/-- `DIGIT_OFF = not DIGIT_ON` (R9). -/
def Params.digitOff (p : Params) : Level := p.digitOn.flip

/-- `SEG_OFF = not SEG_ON` (R9). -/
def Params.segmentOff (p : Params) : Level := p.segmentOn.flip

/-- The level of a digit line: `DIGIT_ON` energized, `DIGIT_OFF` de-energized (30_encoding.md R78). -/
def Params.digitLevel (p : Params) (energized : Bool) : Level := if energized then p.digitOn else p.digitOff

/-- The level of a segment line: `SEG_ON` for bit 1 (lit), `SEG_OFF` for bit 0 (dark) (R78). -/
def Params.segmentLevel (p : Params) (lit : Bool) : Level := if lit then p.segmentOn else p.segmentOff

/-- `GLYPH[v]` as a byte: bit 7 of every entry is 0 (R79). -/
def Params.glyph (p : Params) (v : Nat) : Byte := (p.glyphs.getD v 0#7).setWidth 8

/-- What construction and the spec ask of the parameters: `N >= 1` (R8, R185), sixteen glyphs (R79), and the three entries
the source fixes (R80). -/
def Params.admissible (p : Params) : Bool :=
  decide (1 ≤ p.digits) && p.glyphs.length == 16
    && p.glyph 0 == 0x3F#8 && p.glyph 8 == 0x7F#8 && p.glyph 15 == 0x71#8

/-- The default glyph table (R81). Entries 0, 8 and 15 are the source's; the other thirteen are PRESUMED, the common
seven-segment hexadecimal font (93_implementation_defined.md GK1; log 6). -/
def defaultGlyphs : List (BitVec 7) :=
  [0x3F#7, 0x06#7, 0x5B#7, 0x4F#7, 0x66#7, 0x6D#7, 0x7D#7, 0x07#7,
   0x7F#7, 0x6F#7, 0x77#7, 0x7C#7, 0x39#7, 0x5E#7, 0x79#7, 0x71#7]

/-- Configuration A of 41_multiplex_engine.md and 95_test_vectors.md section 2.2, with the default glyphs. DESIGN CHOICE as
the parameters of `State.reset` (log 3): the spec leaves the parameters to the instance. -/
def configurationA : Params :=
  { digits := 4, decimalPoint := true, digitOn := .low, segmentOn := .high, glyphs := defaultGlyphs }

end Sys2Proof
end

