-- ==== Sys2Proof/Machine/State.lean ====
section
/-! DEFINITION. The state of one instance (10_state.md R20), the callers that drive it, what construction leaves, and the
reasons for a refusal. -/

namespace Sys2Proof.Machine

/-- The digit-position space: (position, byte) pairs, positions strictly rising, no byte 0x00 listed (R50; an unlisted
position reads as 0x00, `Memory.unlisted`). -/
abbrev Memory := List Host.Cell

/-- CurrentDigit: "states: Blanked (CurrentDigit = sentinel) and Showing(d)" (R24). Every out-of-range integer of the source
stands for `blanked` (R25). -/
inductive Cur where
  | blanked
  | showing (d : Nat)
  deriving DecidableEq, Repr

/-- The one direction a pin is ever set to (R33). -/
inductive Direction where
  | out
  deriving DecidableEq, Repr

/-- A call of the pin abstraction (R14, R33). -/
inductive PinEvent where
  /-- `emit SetDir(pin)`: `setDirection(pin, output)`. -/
  | setDir (pin : PinId)
  /-- `emit SetLevel(pin, lvl)`. -/
  | setLevel (pin : PinId) (level : Level)
  deriving DecidableEq, Repr

/-- What an operation returns (R15): nothing, a byte, a boolean, or the failure indicator, which "is not a byte" (R142). -/
inductive Result where
  | done
  | byte (b : Byte)
  | bool (b : Bool)
  | fail
  deriving DecidableEq, Repr

/-- A `valueToDisplay` call between two of its writes (R63): `left` positions are still to be written, the next of them
`left - 1`, and `rest` is "the remaining higher-order value" (R145). -/
structure DisplayJob where
  left : Nat
  rest : Nat
  radix : Nat
  showLeadingZeros : Bool
  decimalPointPosition : Option Nat
  deriving DecidableEq, Repr

/-- A call that has started and not finished. -/
inductive Flight where
  /-- `valueToDisplay`, some of its writes done (R61, R151). -/
  | display (job : DisplayJob)
  /-- An engine operation that has started and whose one atomic unit (R63) is still to come (R32). -/
  | engine (i : Instr)
  deriving DecidableEq, Repr

/-- The two caller contexts (R41, R175): the main flow and the tick context. -/
inductive Agent where
  | main
  | tick
  deriving DecidableEq, Repr

/-- A caller context: the records of the calls it is still to make, oldest first, and the call it has in flight. -/
structure Context where
  calls : List (List Byte)
  flight : Option Flight
  deriving DecidableEq, Repr

/-- How far a turn lets its context go: the whole of its call, or one atomic unit of it (R63; log 24). -/
inductive Grain where
  | whole
  | unit
  deriving DecidableEq, Repr

/-- One entry of the schedule: which context moves, and how far. -/
structure Turn where
  agent : Agent
  grain : Grain
  deriving DecidableEq, Repr

/-- A step ends in a fault never: "No exceptions or fatal aborts" (60_exceptions.md R160, R172). -/
inductive Fault where
  deriving DecidableEq, Repr

/-- Why a step has no next state. The first eight are the closed list of R165: "not hardware behaviour", situations to which
the source gives no meaning. Each is safe: a refused step proves nothing of the block. -/
inductive Refusal where
  /-- Construction with `N = 0` or `N > N_MAX` (R165, R185). Safe. -/
  | badDigitCount
  /-- `read` with `pos >= N`: "not a valid operation" (R101). Safe. -/
  | readOutOfRange
  /-- `advanceToDigit`, `advance`, `setBlank`, `isBlank` before `initialize` has completed (R115). Safe. -/
  | notInitialized
  /-- A second `initialize` (R115, R192). Safe. -/
  | alreadyInitialized
  /-- `initialize` with a list whose length is not `N`, not `S` (R116). Safe. -/
  | badPinList
  /-- `initialize` with a pin identifier twice in the `N + S` entries (R116). Safe. -/
  | duplicatePin
  /-- An engine operation that starts while another is in flight (R115, R170). Safe. -/
  | reentered
  /-- `valueToDisplay` with `radix < 2` (R145, R150). Safe. -/
  | badRadix
  /-- A call record that decodes to no operation (the model's own record form, log 1); raised by a step. Safe. -/
  | badCall (e : DecodeError)
  /-- An operation that has no meaning in the model; raised by no arm. Safe. -/
  | notModelled (mnemonic : String)
  deriving DecidableEq, Repr

/-- The state. `cfg` to `trace` are the spec's own (R20: "Nothing else is state"); `ret` to `turns` are the model's. -/
structure State where
  /-- `N`, `DP`, `DIGIT_ON`, `SEG_ON` (R29) and the glyph table (R39). No operation writes it. -/
  cfg : Params
  /-- `BM`, the segment bitmaps (R21). -/
  bm : Memory
  /-- `CUR`, CurrentDigit (R23). -/
  cur : Cur
  /-- `DPIN`, digit line to pin, leftmost digit first (R29, R84); empty until `initialize`. -/
  dpin : List PinId
  /-- `SPIN`, segment line to pin, segment a first (R29, R84); empty until `initialize`. -/
  spin : List PinId
  /-- `SCRATCH` (R30): written by an out-of-range direct access, never read (a read is a draw). -/
  scratch : Byte
  /-- `INIT`: `initialize` has completed (R31). -/
  init : Bool
  /-- `BUSY`: an engine operation has started and not finished (R32). -/
  busy : Bool
  /-- `DIR` (R34): the pins whose direction is known, rising; any other is `unknown`. -/
  dir : List (PinId × Direction)
  /-- `LVL` (R34): the pins whose level is known, rising; any other is `unknown`. -/
  lvl : List (PinId × Level)
  /-- `TRACE`: every pin event since construction, in the order emitted (R36). -/
  trace : List PinEvent
  /-- The model's: what the last completed operation returned (log 7). -/
  ret : Result
  /-- The model's: how many draws have been made (log 5). -/
  draws : Nat
  /-- The model's: the main flow's calls (log 2). -/
  main : Context
  /-- The model's: the tick context's calls (log 2). -/
  tick : Context
  /-- The model's: the schedule, next turn first (log 2). -/
  turns : List Turn
  deriving DecidableEq, Repr

/-- A context that has nothing to call. -/
def Context.idle : Context := { calls := [], flight := none }

/-- An instance right after construction with parameters `p` (10_state.md R40, 70_reset_and_hazards.md R185): bitmaps "created
zeroed", no pin event, every pin `unknown`. DESIGN CHOICE, where R40 says "unspecified": `CUR` is `Showing(0)` (log 4) and
`SCRATCH` is 0x00 (log 5). -/
def State.powerOn (p : Params) : State where
  cfg := p
  bm := []
  cur := .showing 0
  dpin := []
  spin := []
  scratch := 0x00#8
  init := false
  busy := false
  dir := []
  lvl := []
  trace := []
  ret := .done
  draws := 0
  main := Context.idle
  tick := Context.idle
  turns := []

/-- The machine right after reset: construction with configuration A (DESIGN CHOICE, log 3). -/
def State.reset : State := State.powerOn configurationA

end Sys2Proof.Machine
end

