-- ==== Sys2Proof/Machine/Ops.lean ====
section
/-! DEFINITION. The named operations over the bitmap array, the pin latches and the other state.
There is no exception entry and no return from one to model: "No exceptions or fatal aborts" (60_exceptions.md R160), no
state is saved and no mode changes (R172, R173). -/

namespace Sys2Proof.Machine

/-! ### Sparse tables: lists of (key, value) pairs with keys strictly rising -/

/-- The value listed for a key. -/
def getKey {α : Type} : List (Nat × α) → Nat → Option α
  | [], _ => none
  | (k, v) :: rest, a => if a = k then some v else getKey rest a

/-- List a value for a key, in the key's place. -/
def putKey {α : Type} : List (Nat × α) → Nat → α → List (Nat × α)
  | [], a, v => [(a, v)]
  | (k, w) :: rest, a, v =>
    if a < k then (a, v) :: (k, w) :: rest
    else if a = k then (a, v) :: rest
    else (k, w) :: putKey rest a v

/-- List nothing for a key. -/
def dropKey {α : Type} (l : List (Nat × α)) (a : Nat) : List (Nat × α) := l.filter fun c => c.1 != a

/-- The keys rise strictly. -/
abbrev Rising {α : Type} (l : List (Nat × α)) : Prop := (l.map Prod.fst).Pairwise (· < ·)

/-! ### The bitmap array -/

/-- What an unlisted position reads as: "created zeroed (all off) at construction" (R40, R185; log 8). -/
def Memory.unlisted : Byte := 0x00#8

/-- `BM[p]` (R13). -/
def Memory.read (m : Memory) (p : Nat) : Byte := (getKey m p).getD Memory.unlisted

/-- `BM[p] <- v` (R13). -/
def Memory.write (m : Memory) (p : Nat) (v : Byte) : Memory :=
  if v = Memory.unlisted then dropKey m p else putKey m p v

/-- The canonical form: positions strictly rising, no byte listed that an unlisted position reads as. -/
abbrev Memory.wf (m : Memory) : Prop := Rising m ∧ ∀ c ∈ m, c.2 ≠ Memory.unlisted

/-- `inRange(p)` is `p < N` (R13). -/
abbrev State.inRange (s : State) (p : Nat) : Prop := p < s.cfg.digits

/-- `BM[p]` of a state. -/
def State.cell (s : State) (p : Nat) : Byte := s.bm.read p

/-- The guarded store of `write` (R102): `BM[p] <- v` in range, nothing otherwise. -/
def State.store (s : State) (p : Nat) (v : Byte) : State :=
  if s.inRange p then { s with bm := s.bm.write p v } else s

/-- `MemRead(p, 1)` (R53): the byte, and the state in which a draw has been used up where there was one. -/
def State.memRead (s : State) (p : Nat) : Byte × State :=
  if s.inRange p then (s.cell p, s)
  else (Config.freeByte s.draws, { s with draws := s.draws + 1 })

/-- `MemWrite(p, 1, v)` (R54). -/
def State.memWrite (s : State) (p : Nat) (v : Byte) : State :=
  if s.inRange p then { s with bm := s.bm.write p v } else { s with scratch := v }

/-! ### Pins -/

/-- `DIR[x]`; `none` is `unknown` (R34). -/
def State.direction (s : State) (x : PinId) : Option Direction := getKey s.dir x

/-- `LVL[x]`; `none` is `unknown` (R34). -/
def State.level (s : State) (x : PinId) : Option Level := getKey s.lvl x

/-- One pin event (R35, R36): it updates the pin's direction or level at once and is appended to the trace. -/
def State.emit (s : State) : PinEvent → State
  | .setDir x => { s with dir := putKey s.dir x .out, trace := s.trace ++ [.setDir x] }
  | .setLevel x l => { s with lvl := putKey s.lvl x l, trace := s.trace ++ [.setLevel x l] }

/-- Pin events in order. -/
def State.emitAll (s : State) (es : List PinEvent) : State := es.foldl State.emit s

/-! ### The rest of the state -/

/-- Complete an operation with its result. -/
def State.returns (s : State) (r : Result) : State := { s with ret := r }

/-- `CUR <- c` (R13). -/
def State.setCur (s : State) (c : Cur) : State := { s with cur := c }

/-- The context of an agent. -/
def State.context (s : State) : Agent → Context
  | .main => s.main
  | .tick => s.tick

/-- Replace the context of an agent. -/
def State.setContext (s : State) : Agent → Context → State
  | .main, c => { s with main := c }
  | .tick, c => { s with tick := c }

/-- The call in flight is an engine operation. -/
def Context.engineInFlight (c : Context) : Bool :=
  match c.flight with
  | some (.engine _) => true
  | some (.display _) => false
  | none => false

/-- Construction (R185): the parameters fix the instance; `N = 0` and `N > N_MAX` are refused (R165). `nMax = none` says that
the implementation has no limit; the spec leaves `N_MAX` open (R11, D26; log 30). -/
def construct (nMax : Option Nat) (p : Params) : Host.Outcome State Fault Refusal :=
  if p.digits = 0 then .refused .badDigitCount
  else
    match nMax with
    | none => .next (State.powerOn p)
    | some m => if m < p.digits then .refused .badDigitCount else .next (State.powerOn p)

end Sys2Proof.Machine
end

