-- ==== Sys2Proof/Machine/Operands.lean ====
section
/-! DEFINITION. How operands are read (30_encoding.md R86) and how lines are reached through the PinMap (R67). -/

namespace Sys2Proof.Machine

/-- A target in range is `Showing(target)`, any other is blank (R83, R86). -/
def State.targetState (s : State) (target : Nat) : Cur :=
  if s.inRange target then .showing target else .blanked

/-- A target `t >= N`, for "`advanceToDigit(t)` for any `t >= N`" (R91, R126, R127): all of them act alike (R25). -/
def State.blankTarget (s : State) : Nat := s.cfg.digits

/-- `energize(i)` (R14), as the events it emits; the lookup cannot fail where a rule uses it (R67). -/
def State.energize (s : State) (i : Nat) : List PinEvent :=
  match s.dpin[i]? with
  | some x => [.setLevel x (s.cfg.digitLevel true)]
  | none => []

/-- `deenergize(i)` (R14), as the events it emits. -/
def State.deenergize (s : State) (i : Nat) : List PinEvent :=
  match s.dpin[i]? with
  | some x => [.setLevel x (s.cfg.digitLevel false)]
  | none => []

/-- `drive(k, bit)` (R14), as the events it emits. -/
def State.drive (s : State) (k : Nat) (lit : Bool) : List PinEvent :=
  match s.spin[k]? with
  | some x => [.setLevel x (s.cfg.segmentLevel lit)]
  | none => []

/-- `for k in 0 .. S-1: drive(k, b[k])` (R118): bit `k` drives segment line `k` (R75). With `DP` false there is no line 7 and
bit 7 drives nothing (R77). Ascending order and completeness are the spec's choice (R125; log 11). -/
def State.driveAll (s : State) (b : Byte) : List PinEvent :=
  (List.range s.cfg.segments).flatMap (fun k => s.drive k (b.getLsbD k))

/-- The decimal point is at position `p` (R144, R145: `dp := (p = dpPos)`). -/
def pointAt (dpPos : Option Nat) (p : Nat) : Bool :=
  match dpPos with
  | some q => decide (p = q)
  | none => false

/-- Position `p` is to the left of the decimal point, strictly (R146); with the operand omitted every position is (R144). -/
def leftOfPoint (dpPos : Option Nat) (p : Nat) : Bool :=
  match dpPos with
  | some q => decide (p < q)
  | none => true

/-- The decimal-point bit, bit 7 (R82). -/
def pointBit (decimalPoint : Bool) : Byte := if decimalPoint then 0x80#8 else 0x00#8

end Sys2Proof.Machine
end

