-- ==== Sys2Proof/Machine/Flags.lean ====
section
/-! DEFINITION. The block "has no flag register and no condition codes" (10_state.md R28): one status predicate, one result
predicate, and the two lifecycle marks that gate the engine operations. -/

namespace Sys2Proof.Machine

/-- `isBlank = (CUR = Blanked)` (R28). -/
def State.isBlank (s : State) : Bool :=
  match s.cur with
  | .blanked => true
  | .showing _ => false

/-- The success boolean of `valueToDisplay` (42_encoder.md R148): nothing is left after `N` digits. -/
def fits (rest : Nat) : Bool := decide (rest = 0)

/-- Why an engine operation other than `initialize` is refused (41_multiplex_engine.md R115), if it is. No rule orders the two
tests, and both are refusals (log 31). -/
def State.engineStop (s : State) : Option Refusal :=
  if s.busy then some .reentered
  else if s.init then none
  else some .notInitialized

/-- Why `initialize` is refused, if it is: the tests in the order of its pseudocode (R116, R171). -/
def State.initializeStop (s : State) (digitPins segmentPins : List PinId) : Option Refusal :=
  if s.busy then some .reentered
  else if s.init then some .alreadyInitialized
  else if digitPins.length ≠ s.cfg.digits ∨ segmentPins.length ≠ s.cfg.segments then some .badPinList
  else if (digitPins ++ segmentPins).Nodup then none
  else some .duplicatePin

/-- Why an engine operation is refused where it starts (R115, R116), if it is; a content operation has no such gate (R100). -/
def State.startStop (s : State) : Instr → Option Refusal
  | .read _ => none
  | .write _ _ => none
  | .daRead _ => none
  | .daWrite _ _ => none
  | .initializeEngine digitPins segmentPins _ => s.initializeStop digitPins segmentPins
  | .advanceToDigit _ => s.engineStop
  | .advance => s.engineStop
  | .setBlank _ => s.engineStop
  | .isBlank => s.engineStop
  | .digitToBitmap _ _ => none
  | .valueToDisplay _ _ _ _ => none

end Sys2Proof.Machine
end

