-- ==== Sys2Proof/Machine/DisplayState.lean ====
section
/-! DEFINITION. The DisplayState operations (40_display_state.md). None of them needs the PinMap, changes `CUR` or emits a pin
event (R100, R106). -/

namespace Sys2Proof.Machine

/-- READ (R101): the stored byte; an out-of-range position is "not a valid operation" and refused. -/
def execRead (pos : Nat) (s : State) : Host.Outcome State Fault Refusal :=
  if s.inRange pos then .next (s.returns (.byte (s.cell pos)))
  else .refused .readOutOfRange

/-- WRITE (R102): "if pos is out of range, the call is a silent no-op (not an error)". -/
def execWrite (pos : Nat) (bitmap : Byte) (s : State) : Host.Outcome State Fault Refusal :=
  .next ((s.store pos bitmap).returns .done)

/-- DA_READ (R104): `MemRead(pos, 1)`, a draw out of range. -/
def execDaRead (pos : Nat) (s : State) : Host.Outcome State Fault Refusal :=
  .next ((s.memRead pos).2.returns (.byte (s.memRead pos).1))

/-- DA_WRITE (R105): `MemWrite(pos, 1, v)`, discarded into SCRATCH out of range. -/
def execDaWrite (pos : Nat) (bitmap : Byte) (s : State) : Host.Outcome State Fault Refusal :=
  .next ((s.memWrite pos bitmap).returns .done)

end Sys2Proof.Machine
end

