-- ==== Sys2Proof/Machine/Encoder.lean ====
section
/-! DEFINITION. The Encoder operations (42_encoder.md). They never change `CUR` and never emit a pin event (R140). -/

namespace Sys2Proof.Machine

/-- `digitToBitmap(value, decimalPoint)` as a function (R141): `none` is the failure indicator (R142). -/
def bitmapOf (p : Params) (value : Nat) (decimalPoint : Bool) : Option Byte :=
  if 15 < value then none else some (p.glyph value ||| pointBit decimalPoint)

/-- DIGIT_TO_BITMAP (R141): no state is written, in either outcome. -/
def execDigitToBitmap (value : Nat) (decimalPoint : Bool) (s : State) : Host.Outcome State Fault Refusal :=
  match bitmapOf s.cfg value decimalPoint with
  | some b => .next (s.returns (.byte b))
  | none => .next (s.returns .fail)

/-- The suppression rule (R146), for the digit `d` of position `p` with `rest` above it; the units digit, position `N-1`, is never
suppressed (90_conflicts.md C1; log 28). -/
def suppressed (p : Params) (pos d rest : Nat) (showLeadingZeros : Bool) (dpPos : Option Nat) : Bool :=
  decide (d = 0) && decide (rest = 0) && !showLeadingZeros && leftOfPoint dpPos pos && decide (pos ≠ p.digits - 1)

/-- What `valueToDisplay` writes to position `pos` (R145): `none` where the digit is above 15 and nothing is written (R150). The
point of a suppressed position is kept as R147 has it, though no position is both. -/
def cellBitmap (p : Params) (pos d rest : Nat) (showLeadingZeros : Bool) (dpPos : Option Nat) : Option Byte :=
  if suppressed p pos d rest showLeadingZeros dpPos then some (pointBit (pointAt dpPos pos))
  else bitmapOf p d (pointAt dpPos pos)

/-- The store of one iteration, through `write` (R145); a rejected digit leaves its cell as it was (R150). -/
def State.storeDigit (s : State) (pos : Nat) : Option Byte → State
  | some b => s.store pos b
  | none => s

/-- One atomic unit of `valueToDisplay` (R63, R145): the next position to the left. -/
def displayUnit (j : DisplayJob) (s : State) : DisplayJob × State :=
  match j.left with
  | 0 => (j, s)
  | pos + 1 =>
    ({ j with left := pos, rest := j.rest / j.radix },
      s.storeDigit pos
        (cellBitmap s.cfg pos (j.rest % j.radix) (j.rest / j.radix) j.showLeadingZeros j.decimalPointPosition))

/-- `count` units in a row. -/
def displayUnits : Nat → DisplayJob → State → DisplayJob × State
  | 0, j, s => (j, s)
  | count + 1, j, s =>
    match displayUnit j s with
    | (j', s') => displayUnits count j' s'

/-- A `valueToDisplay` call before its first write: all `N` positions are left. -/
def displayJob (value radix : Nat) (showLeadingZeros : Bool) (dpPos : Option Nat) (s : State) : DisplayJob :=
  { left := s.cfg.digits, rest := value, radix := radix, showLeadingZeros := showLeadingZeros,
    decimalPointPosition := dpPos }

/-- VALUE_TO_DISPLAY (R145), all its units in a row: the call as its caller sees it when nothing comes between. Schedule.lean runs
the same units one turn each where something does (R61, R63, R151). -/
def execValueToDisplay (value radix : Nat) (showLeadingZeros : Bool) (dpPos : Option Nat) (s : State) :
    Host.Outcome State Fault Refusal :=
  if radix < 2 then .refused .badRadix
  else
    match displayUnits s.cfg.digits (displayJob value radix showLeadingZeros dpPos s) s with
    | (j, t) => .next (t.returns (.bool (fits j.rest)))

end Sys2Proof.Machine
end

