-- ==== Sys2Proof/Machine/MultiplexEngine.lean ====
section
/-! DEFINITION. The MultiplexEngine operations (41_multiplex_engine.md). Each is one atomic unit of the model (R63, R115), so
`BUSY` is false again when one is done; it is true between steps only while Schedule.lean has one started and not finished. -/

namespace Sys2Proof.Machine

/-- The events of `initialize` (R116): every pin a `SetDir` and then its off level, digit lines first. The order among pins is
the spec's choice (log 13). -/
def initializeEvents (p : Params) (digitPins segmentPins : List PinId) : List PinEvent :=
  digitPins.flatMap (fun x => [.setDir x, .setLevel x (p.digitLevel false)])
    ++ segmentPins.flatMap (fun x => [.setDir x, .setLevel x (p.segmentLevel false)])

/-- INITIALIZE (R116): the start state is entered by an assignment to `CUR` only, with no event (R117; log 14). -/
def execInitialize (digitPins segmentPins : List PinId) (startBlanked : Bool) (s : State) :
    Host.Outcome State Fault Refusal :=
  match s.initializeStop digitPins segmentPins with
  | some r => .refused r
  | none =>
    .next { (s.emitAll (initializeEvents s.cfg digitPins segmentPins)) with
      dpin := digitPins
      spin := segmentPins
      cur := if startBlanked then .blanked else .showing 0
      init := true
      ret := .done }

/-- Step 1 of a transition (R118, R120): the outgoing digit line is switched off; from Blanked there is none (R122). -/
def State.leaveEvents (s : State) : List PinEvent :=
  match s.cur with
  | .showing c => s.deenergize c
  | .blanked => []

/-- The byte a rewriting step takes for the segment lines: `BM[target]`, sampled once (R124; log 12), or 0x00 for a target out of
range (R93). -/
def State.sample (s : State) (target : Nat) : Byte :=
  if s.inRange target then s.cell target else 0x00#8

/-- Step 3 of a transition (R118): the digit line of an in-range target is energized. -/
def State.enterEvents (s : State) (target : Nat) : List PinEvent :=
  if s.inRange target then s.energize target else []

/-- The pin events of `advanceToDigit(target)` (R118), in order. The segment lines are rewritten when the state changes (R120, R122)
and not otherwise (R121); from Blanked to Blanked nothing is emitted (R119). -/
def State.transitionEvents (s : State) (target : Nat) : List PinEvent :=
  if s.cur = s.targetState target then s.enterEvents target
  else s.leaveEvents ++ s.driveAll (s.sample target) ++ s.enterEvents target

/-- `advanceToDigit(target)` past its gate (R118): the events, then `CUR` (R123). -/
def State.moveTo (s : State) (target : Nat) : State :=
  (s.emitAll (s.transitionEvents target)).setCur (s.targetState target)

/-- ADVANCE_TO_DIGIT (R118). -/
def execAdvanceToDigit (target : Nat) (s : State) : Host.Outcome State Fault Refusal :=
  match s.engineStop with
  | some r => .refused r
  | none => .next ((s.moveTo target).returns .done)

/-- The target of `advance()` (R126): "(CurrentDigit + 1) mod numDigits if currently Showing", blank if Blanked. -/
def State.advanceTarget (s : State) : Nat :=
  match s.cur with
  | .showing d => (d + 1) % s.cfg.digits
  | .blanked => s.blankTarget

/-- ADVANCE (R126). -/
def execAdvance (s : State) : Host.Outcome State Fault Refusal :=
  match s.engineStop with
  | some r => .refused r
  | none => .next ((s.moveTo s.advanceTarget).returns .done)

/-- SET_BLANK (R127): "calls advanceToDigit(sentinel) if flag is true, advanceToDigit(0) if false". -/
def execSetBlank (flag : Bool) (s : State) : Host.Outcome State Fault Refusal :=
  match s.engineStop with
  | some r => .refused r
  | none => .next ((s.moveTo (if flag then s.blankTarget else 0)).returns .done)

/-- IS_BLANK (R128). -/
def execIsBlank (s : State) : Host.Outcome State Fault Refusal :=
  match s.engineStop with
  | some r => .refused r
  | none => .next (s.returns (.bool s.isBlank))

end Sys2Proof.Machine
end

