-- ==== Sys2Proof/Machine/Dispatch.lean ====
section
/-! DEFINITION. One arm per operation. -/

namespace Sys2Proof.Machine

def exec (i : Instr) (s : State) : Host.Outcome State Fault Refusal :=
  match i with
  | .read pos => Sys2Proof.Machine.execRead pos s
  | .write pos bitmap => Sys2Proof.Machine.execWrite pos bitmap s
  | .daRead pos => Sys2Proof.Machine.execDaRead pos s
  | .daWrite pos bitmap => Sys2Proof.Machine.execDaWrite pos bitmap s
  | .initializeEngine dp sp startBlanked => Sys2Proof.Machine.execInitialize dp sp startBlanked s
  | .advanceToDigit target => Sys2Proof.Machine.execAdvanceToDigit target s
  | .advance => Sys2Proof.Machine.execAdvance s
  | .setBlank flag => Sys2Proof.Machine.execSetBlank flag s
  | .isBlank => Sys2Proof.Machine.execIsBlank s
  | .digitToBitmap value point => Sys2Proof.Machine.execDigitToBitmap value point s
  | .valueToDisplay value radix zeros dpPos => Sys2Proof.Machine.execValueToDisplay value radix zeros dpPos s

end Sys2Proof.Machine
end

