-- ==== Sys2Proof/Machine/Schedule.lean ====
section
/-! DEFINITION. How the calls of the two caller contexts are interleaved (20_memory.md R62, R63): which call moves next and how far.
The schedule is plain data in State (R39: it is a parameter of a step; log 2, log 24). -/

namespace Sys2Proof.Machine

/-- Nothing pending and nothing in flight. -/
def Context.isIdle (c : Context) : Bool := c.calls.isEmpty && c.flight.isNone

/-- The turn taken when the schedule names none: the main flow's next call as a whole, or the tick context's where the main flow has
nothing to call (DESIGN CHOICE, log 2). -/
def State.defaultTurn (s : State) : Turn :=
  { agent := if s.main.isIdle then .tick else .main, grain := .whole }

/-- Change what an agent has in flight. -/
def State.setFlight (s : State) (a : Agent) (f : Option Flight) : State :=
  s.setContext a { (s.context a) with flight := f }

/-- Take an agent's next call off its pending ones, of which `calls` are left. -/
def State.popCall (s : State) (a : Agent) (calls : List (List Byte)) : State :=
  s.setContext a { calls := calls, flight := none }

/-- How many units of a `valueToDisplay` a turn runs. -/
def unitsOf (g : Grain) (left : Nat) : Nat :=
  match g with
  | .whole => left
  | .unit => min 1 left

/-- Go on with a `valueToDisplay`: one unit of it, or all that are left. When none is left it returns its result (R148). -/
def runDisplay (a : Agent) (g : Grain) (j : DisplayJob) (s : State) : State :=
  match displayUnits (unitsOf g j.left) j s with
  | (j', t) =>
    if j'.left = 0 then (t.setFlight a none).returns (.bool (fits j'.rest))
    else t.setFlight a (some (.display j'))

/-- An engine operation starts, unless its gate refuses it (60_exceptions.md R165, R168, R170): `BUSY` is true until it has finished
(R32). -/
def beginEngine (a : Agent) (i : Instr) (s : State) : Host.Outcome State Fault Refusal :=
  match s.startStop i with
  | some r => .refused r
  | none => .next { (s.setFlight a (some (.engine i))) with busy := true }

/-- One unit of a call that has not started (R63): the first write of a `valueToDisplay`, the start of an engine operation, or the
whole of an operation that is one unit and holds nothing in flight (R32: `isBlank` does not set `BUSY`). -/
def beginCall (a : Agent) (i : Instr) (s : State) : Host.Outcome State Fault Refusal :=
  match i with
  | .read _ => exec i s
  | .write _ _ => exec i s
  | .daRead _ => exec i s
  | .daWrite _ _ => exec i s
  | .initializeEngine _ _ _ => beginEngine a i s
  | .advanceToDigit _ => beginEngine a i s
  | .advance => beginEngine a i s
  | .setBlank _ => beginEngine a i s
  | .isBlank => exec i s
  | .digitToBitmap _ _ => exec i s
  | .valueToDisplay value radix zeros dpPos =>
    if radix < 2 then .refused .badRadix
    else .next (runDisplay a .unit (displayJob value radix zeros dpPos s) s)

/-- A context takes a turn: it goes on with its call in flight, or makes its next call. An engine operation in flight finishes at
once, since what is left of it is one unit. A context with nothing to call leaves the state as it is (log 29). -/
def takeTurn (t : Turn) (s : State) : Host.Outcome State Fault Refusal :=
  match (s.context t.agent).flight with
  | some (.display j) => .next (runDisplay t.agent t.grain j s)
  | some (.engine i) => exec i { (s.setFlight t.agent none) with busy := false }
  | none =>
    match (s.context t.agent).calls with
    | [] => .next s
    | record :: calls =>
      match decodeRecord record with
      | .error e => .refused (.badCall e)
      | .ok i =>
        match t.grain with
        | .whole => exec i (s.popCall t.agent calls)
        | .unit => beginCall t.agent i (s.popCall t.agent calls)

/-- The next turn: the schedule's, which is used up, or the default one. -/
def nextTurn (s : State) : Host.Outcome State Fault Refusal :=
  match s.turns with
  | t :: turns => takeTurn t { s with turns := turns }
  | [] => takeTurn s.defaultTurn s

/-- Make a record the main flow's next call, and its next turn a whole one. A call the main flow had in flight is given up. -/
def State.withNextCall (s : State) (record : List Byte) : State :=
  { s with
    main := { calls := record :: s.main.calls, flight := none }
    busy := s.tick.engineInFlight
    turns := { agent := .main, grain := .whole } :: s.turns }

end Sys2Proof.Machine
end

