-- ==== Sys2Proof/Machine/Step.lean ====
section
/-! DEFINITION. One step of the machine: one turn of the schedule. -/

namespace Sys2Proof.Machine

/-- One step. -/
def step (s : State) : Host.Outcome State Fault Refusal := nextTurn s

/-- The state in which the next step runs the operation of a table word: the main flow's next call (log 2). -/
def State.withFetchWord (s : State) (nbits w : Nat) : State := s.withNextCall (tableRecord nbits w)

end Sys2Proof.Machine
end

