-- ==== Sys2Proof/Safety.lean ====
section
/-! DEFINITION. What statements about the block are said in: the views of the pins (10_state.md R37, R38), what a trace leaves on the
pins, the invariants, and ways to compare and repeat steps. Nothing here is used by the machine. -/

namespace Sys2Proof

/-- The low `S` bits of a byte (R38). -/
def Params.lowSegments (p : Params) (b : Byte) : Byte := if p.decimalPoint then b else b &&& 0x7F#8

/-! ### Kinds of operations -/

/-- The content operations (00_scope.md R16): "they touch bitmaps only". -/
def Instr.isContent : Instr → Bool
  | .read _ => true
  | .write _ _ => true
  | .daRead _ => true
  | .daWrite _ _ => true
  | .initializeEngine _ _ _ => false
  | .advanceToDigit _ => false
  | .advance => false
  | .setBlank _ => false
  | .isBlank => false
  | .digitToBitmap _ _ => true
  | .valueToDisplay _ _ _ _ => true

/-- The operations that hold `BUSY` while they run (R32): `initialize`, `advanceToDigit`, `advance`, `setBlank`. -/
def Instr.holdsBusy : Instr → Bool
  | .read _ => false
  | .write _ _ => false
  | .daRead _ => false
  | .daWrite _ _ => false
  | .initializeEngine _ _ _ => true
  | .advanceToDigit _ => true
  | .advance => true
  | .setBlank _ => true
  | .isBlank => false
  | .digitToBitmap _ _ => false
  | .valueToDisplay _ _ _ _ => false

end Sys2Proof

namespace Sys2Proof.Machine

/-! ### Views of the pins -/

/-- The digit lines that are at `DIGIT_ON` when the pins have the levels listed in `lvl`. -/
def State.linesOn (s : State) (lvl : List (PinId × Level)) : List Nat :=
  (List.range s.cfg.digits).filter fun i =>
    match s.dpin[i]? with
    | some x => getKey lvl x == some (s.cfg.digitLevel true)
    | none => false

/-- `energized = { i < N | LVL[DPIN[i]] = DIGIT_ON }` (R37). -/
def State.energized (s : State) : List Nat := s.linesOn s.lvl

/-- `LVL[SPIN[k]] = SEG_ON` (R38). -/
def State.segmentLit (s : State) (k : Nat) : Bool :=
  match s.spin[k]? with
  | some x => s.level x == some (s.cfg.segmentLevel true)
  | none => false

/-- `SEGIMG`, the byte whose bit `k` (`k < S`) is 1 iff segment line `k` is lit (R38). -/
def State.segmentImage (s : State) : Byte :=
  BitVec.ofFnLE fun k : Fin 8 => decide (k.val < s.cfg.segments) && s.segmentLit k.val

/-! ### What a trace leaves on the pins -/

/-- What one event does to the directions (R35). -/
def directionsStep (l : List (PinId × Direction)) : PinEvent → List (PinId × Direction)
  | .setDir x => putKey l x .out
  | .setLevel _ _ => l

/-- What one event does to the levels (R35). -/
def levelsStep (l : List (PinId × Level)) : PinEvent → List (PinId × Level)
  | .setDir _ => l
  | .setLevel x v => putKey l x v

/-- The directions after some pin events (R35). -/
def directionsAfter (es : List PinEvent) : List (PinId × Direction) := es.foldl directionsStep []

/-- The levels after some pin events (R35). -/
def levelsAfter (es : List PinEvent) : List (PinId × Level) := es.foldl levelsStep []

/-- The digit lines energized after the first `k` events of the trace. -/
def State.energizedAt (s : State) (k : Nat) : List Nat := s.linesOn (levelsAfter (s.trace.take k))

/-- How many events `initialize` emits: `2 * (N + S)` (R116, R207). -/
def State.initialEvents (s : State) : Nat := 2 * (s.cfg.digits + s.cfg.segments)

/-- The pin an event acts on. -/
def PinEvent.pin : PinEvent → PinId
  | .setDir x => x
  | .setLevel x _ => x

/-- The event sets a level of one of these pins. -/
def PinEvent.setsLevelIn (pins : List PinId) : PinEvent → Bool
  | .setDir _ => false
  | .setLevel x _ => pins.contains x

/-! ### Invariants -/

/-- `CUR` is one of the `N + 1` states of the advance machine (R24). -/
def Cur.legal (digits : Nat) : Cur → Bool
  | .blanked => true
  | .showing d => decide (d < digits)

/-- The pin lists of an initialised instance: `N` and `S` identifiers, pairwise distinct (R29). -/
abbrev PinMapLegal (p : Params) (digitPins segmentPins : List PinId) : Prop :=
  digitPins.length = p.digits ∧ segmentPins.length = p.segments ∧ (digitPins ++ segmentPins).Nodup

/-- The engine operation a context has in flight, if there is one, holds `BUSY` and passes its gate but for that mark. -/
def State.flightAdmitted (s : State) (c : Context) : Bool :=
  match c.flight with
  | some (.engine i) => i.holdsBusy && ({ s with busy := false }.startStop i).isNone
  | some (.display _) => true
  | none => true

/-- The state of an instance hangs together: parameters, canonical bitmaps, `CUR`, pins and trace, `BUSY`, PinMap. -/
structure Consistent (s : State) : Prop where
  /-- The parameters are ones construction and the spec admit. -/
  params : s.cfg.admissible = true
  /-- The bitmaps are in canonical form. -/
  cells : s.bm.wf
  /-- No position outside `0 .. N-1` is listed. -/
  positions : ∀ c ∈ s.bm, c.1 < s.cfg.digits
  /-- `CUR` is legal (R24). -/
  current : s.cur.legal s.cfg.digits = true
  /-- The direction latches are what the trace leaves (R35, R36). -/
  directions : s.dir = directionsAfter s.trace
  /-- The level latches are what the trace leaves (R35, R36). -/
  levels : s.lvl = levelsAfter s.trace
  /-- `BUSY` is true exactly while an engine operation is in flight (R32). -/
  busyMark : s.busy = (s.main.engineInFlight || s.tick.engineInFlight)
  /-- At most one engine operation is in flight (R170). -/
  oneEngine : (s.main.engineInFlight && s.tick.engineInFlight) = false
  /-- An engine operation in flight has passed its gate when it started (R165, R168), so that it will finish. -/
  admitted : s.flightAdmitted s.main = true ∧ s.flightAdmitted s.tick = true
  /-- Before `initialize` there is no PinMap and no pin event (R40). -/
  unset : s.init = false → s.dpin = [] ∧ s.spin = [] ∧ s.trace = []
  /-- After it the PinMap is legal (R29). -/
  pinMap : s.init = true → PinMapLegal s.cfg s.dpin s.spin
  /-- The trace begins with the events of `initialize`, and after them only levels of the PinMap's pins are set (R33, R116). -/
  history : s.init = true →
    s.trace.take s.initialEvents = initializeEvents s.cfg s.dpin s.spin ∧
      ∀ e ∈ s.trace.drop s.initialEvents, e.setsLevelIn (s.dpin ++ s.spin) = true

/-- The event at place `k` of the trace does not set a segment line while a digit line is energized. -/
def State.noBleedAt (s : State) (k : Nat) : Bool :=
  match s.trace[k]? with
  | some e => !(e.setsLevelIn s.spin) || (s.energizedAt k).isEmpty
  | none => true

/-- The digit lines are safe, from the completion of `initialize` on. -/
structure DigitLinesSafe (s : State) : Prop where
  /-- Only the current digit's line can be energized (R37). -/
  current : s.init = true → ∀ i ∈ s.energized, s.cur = .showing i
  /-- At every point of the trace at most one digit line is energized (R37, R130). -/
  oneDigit : s.init = true → ∀ k ≤ s.trace.length, s.initialEvents ≤ k → (s.energizedAt k).length ≤ 1
  /-- No segment line is ever written while a digit line is energized (R120, R202). -/
  noBleed : s.init = true → ∀ k < s.trace.length, s.initialEvents ≤ k → s.noBleedAt k = true
  /-- Blanked is dark (R131). -/
  dark : s.init = true → s.cur = .blanked → s.segmentImage = 0x00#8

/-! ### Digits of a value -/

/-- The digit of weight `radix ^ (N-1-p)` of a value, which goes to position `p` (20_memory.md R56). -/
def digitOf (digits value radix p : Nat) : Nat := value / radix ^ (digits - 1 - p) % radix

/-- What is left of a value above the digit of position `p`: its "remaining higher-order value" (R145). -/
def restAbove (digits value radix p : Nat) : Nat := value / radix ^ (digits - p)

/-! ### Comparing and repeating -/

/-- Apply a change to the next state, if there is one. -/
def mapNext (f : State → State) : Host.Outcome State Fault Refusal → Host.Outcome State Fault Refusal
  | .next t => .next (f t)
  | .fault r => .fault r
  | .refused r => .refused r

/-- `n` ticks in a row, each a whole `advance()` (R167), stopping at a refusal. -/
def ticks : Nat → State → Host.Outcome State Fault Refusal
  | 0, s => .next s
  | n + 1, s =>
    match exec .advance s with
    | .next t => ticks n t
    | .fault r => .fault r
    | .refused r => .refused r

/-- The state is ready for an engine operation other than `initialize` (R115): it is initialised and none is in flight. -/
abbrev State.ready (s : State) : Prop := s.init = true ∧ s.busy = false

end Sys2Proof.Machine
end

