-- ==== Sys2Proof/Certificates/Slice0/Obligations.lean ====
section
/-! DEFINITION. The statements for the provers. A docstring names the rules of spec/ a statement comes from, and says so where a
clause rests on a choice (a decision D<n> of 92_eei_decisions.md, or a log entry of the model). -/

open Sys2Proof Sys2Proof.Machine

/-! ### Construction, reset, steps -/

/-- R185, R40, R165: construction with `1 <= N <= N_MAX` leaves zeroed bitmaps, no PinMap, unknown pins and an empty trace; any other
`N` is refused (D30, log 30); the model's reset is such a construction (log 3). Nothing is said of `CUR` or `SCRATCH` (R188). -/
def Obligations.ConstructionLeavesZeroedBitmapsAndUnknownPins : Prop :=
  (∀ (nMax : Option Nat) (p : Params), 1 ≤ p.digits → (∀ m, nMax = some m → p.digits ≤ m) →
    ∃ t, construct nMax p = .next t ∧ t.cfg = p ∧ (∀ q, t.cell q = 0x00#8) ∧ t.dpin = [] ∧ t.spin = [] ∧
      t.init = false ∧ t.busy = false ∧ t.trace = [] ∧ ∀ x, t.direction x = none ∧ t.level x = none) ∧
  (∀ (nMax : Option Nat) (p : Params), (p.digits = 0 ∨ ∃ m, nMax = some m ∧ m < p.digits) →
    construct nMax p = .refused .badDigitCount) ∧
  construct none configurationA = .next State.reset

/-- The invariants hold right after construction with admissible parameters, `State.reset` among them (`CUR` there: log 4). -/
def Obligations.ConstructedStateMeetsTheInvariants : Prop :=
  (∀ p : Params, p.admissible = true → Consistent (State.powerOn p) ∧ DigitLinesSafe (State.powerOn p)) ∧
  Consistent State.reset ∧ DigitLinesSafe State.reset

/-- Every step keeps the state consistent: canonical bitmaps inside `0 .. N-1` (R50), a legal `CUR` (R24), latches that are what the
trace leaves (R35, R36), `BUSY` true exactly while an engine operation is in flight, at most one in flight and that one past its gate
(R32, R170, R165; log 24), a legal PinMap from `initialize` on (R29), directions set by `initialize` only and no pin outside the PinMap ever touched (R33, R116). -/
def Obligations.StepKeepsTheStateConsistent : Prop :=
  ∀ s t : State, Consistent s → step s = .next t → Consistent t

/-- R37, R130, R120, R202, R131(d): from `initialize` on, every step keeps the digit lines safe: at every point of the trace at most one
digit line is energized and none while a segment line is written; between steps only the current digit's; Blanked is dark. -/
def Obligations.StepKeepsTheDigitLinesSafe : Prop :=
  ∀ s t : State, Consistent s → DigitLinesSafe s → step s = .next t → DigitLinesSafe t

/-- When a context's next call decodes to `i` and its turn is a whole one, the step is `exec i` at the state with that turn and that
call used up (log 2). The turn is the schedule's next, or the default one of an empty schedule. -/
def Obligations.StepRunsTheDecodedCall : Prop :=
  ∀ (s : State) (a : Agent) (record : List Byte) (calls : List (List Byte)) (turns : List Turn) (i : Instr),
    (s.context a).flight = none → (s.context a).calls = record :: calls → decodeRecord record = .ok i →
    (s.turns = { agent := a, grain := .whole } :: turns ∨
      s.turns = [] ∧ turns = [] ∧ (a = .tick → s.main.calls = [] ∧ s.main.flight = none)) →
    step s = exec i ({ s with turns := turns }.setContext a { calls := calls, flight := none })

/-- The block never acts on its own (R41): where the context whose turn it is has nothing to call, a step changes nothing but the
schedule (log 29); a record that is no call is refused by name (log 1). -/
def Obligations.StepWithoutACallChangesNothing : Prop :=
  (∀ (s : State) (t : Turn) (turns : List Turn), s.turns = t :: turns → s.context t.agent = Context.idle →
    step s = .next { s with turns := turns }) ∧
  (∀ s : State, s.turns = [] → s.main = Context.idle → s.tick = Context.idle → step s = .next s) ∧
  (∀ (s : State) (t : Turn) (turns : List Turn) (record : List Byte) (calls : List (List Byte)) (e : DecodeError),
    s.turns = t :: turns → (s.context t.agent).flight = none → (s.context t.agent).calls = record :: calls →
    decodeRecord record = .error e → step s = .refused (.badCall e))

/-! ### Call records -/

/-- The ordinals of R87 (the spec's own numbering, D22) decode to their operations, and a few records written out byte by byte decode
with their operands (the operand bytes are the model's choice, log 1). -/
def Obligations.TableWordsDecodeToTheirOperations : Prop :=
  decodeTableWord 8 0 = some (.read 0) ∧ decodeTableWord 8 1 = some (.write 0 0x00#8) ∧
  decodeTableWord 8 2 = some (.daRead 0) ∧ decodeTableWord 8 3 = some (.daWrite 0 0x00#8) ∧
  decodeTableWord 8 4 = some (.initializeEngine [] [] false) ∧ decodeTableWord 8 5 = some (.advanceToDigit 0) ∧
  decodeTableWord 8 6 = some .advance ∧ decodeTableWord 8 7 = some (.setBlank false) ∧
  decodeTableWord 8 8 = some .isBlank ∧ decodeTableWord 8 9 = some (.digitToBitmap 0 false) ∧
  decodeTableWord 8 10 = some (.valueToDisplay 0 0 false none) ∧ decodeTableWord 8 11 = none ∧
  decodeRecord [0x01#8, 0x03#8, 0xFF#8] = .ok (.write 3 0xFF#8) ∧
  decodeRecord [0x0A#8, 0xD2#8, 0x09#8, 0x0A#8, 0x00#8, 0x01#8, 0x02#8] = .ok (.valueToDisplay 1234 10 false (some 2))

/-- Decoding the record of an operation gives the operation back, with every operand at every value (log 1). -/
def Obligations.DecodeOfEncodeGivesTheOperationBack : Prop :=
  ∀ i : Instr, decodeRecord (encode i) = .ok i

/-- A record that decodes is the record of the operation it decodes to: no two records mean the same (log 1). -/
def Obligations.RecordThatDecodesIsItsEncoding : Prop :=
  ∀ (bytes : List Byte) (i : Instr), decodeRecord bytes = .ok i → encode i = bytes

/-- Records that are no call are rejected by name: an ordinal of 11 to 15 (R87 numbers 0 to 10), bits above the ordinal, nothing, or
bytes left over (log 1). -/
def Obligations.RecordsThatAreNoCallAreRejectedByName : Prop :=
  (∀ (b : Byte) (bs : List Byte), 11 ≤ b.toNat → b.toNat < 16 →
    decodeRecord (b :: bs) = .error (.reservedOrdinal b.toNat)) ∧
  (∀ (b : Byte) (bs : List Byte), 16 ≤ b.toNat → decodeRecord (b :: bs) = .error .reservedBits) ∧
  decodeRecord [] = .error .truncated ∧
  (∀ (i : Instr) (b : Byte) (bs : List Byte), decodeRecord (encode i ++ b :: bs) = .error .trailingBytes)

/-! ### DisplayState -/

/-- R101: `read` returns the stored byte, all eight bits, before or after `initialize`, and writes nothing; out of range it is refused
(D13). -/
def Obligations.ReadReturnsTheStoredByte : Prop :=
  ∀ (s : State) (pos : Nat),
    (pos < s.cfg.digits → exec (.read pos) s = .next { s with ret := .byte (s.cell pos) }) ∧
    (s.cfg.digits ≤ pos → exec (.read pos) s = .refused .readOutOfRange)

/-- R102: `write` stores its byte unchanged in range and does nothing out of range, `SCRATCH` and the segment lines included; every
other cell reads as before. -/
def Obligations.WriteStoresOneCellOrNothing : Prop :=
  ∀ (s : State) (pos : Nat) (bitmap : Byte), ∃ t,
    exec (.write pos bitmap) s = .next t ∧ t = { s with bm := t.bm, ret := .done } ∧
    (∀ a, t.cell a = if a = pos ∧ pos < s.cfg.digits then bitmap else s.cell a) ∧
    (s.cfg.digits ≤ pos → t.bm = s.bm) ∧ t.segmentImage = s.segmentImage

/-- R104, R53: a read through a reference returns the stored byte in range and some byte out of range (a draw, D14, log 5: nothing is
said of it), and writes no state but the model's count of draws. -/
def Obligations.DirectReadReturnsTheByteOrADraw : Prop :=
  ∀ (s : State) (pos : Nat),
    (pos < s.cfg.digits → exec (.daRead pos) s = .next { s with ret := .byte (s.cell pos) }) ∧
    (s.cfg.digits ≤ pos → ∃ b, exec (.daRead pos) s = .next { s with ret := .byte b, draws := s.draws + 1 })

/-- R54: `MemWrite` stores in range and goes to `SCRATCH` out of range; it changes nothing else, not `CUR`, not a pin, not another cell;
and no later operation can observe `SCRATCH`. R54 excepts the draw of R53; that a read of the scratch cell does not depend on its
content is the model's form of that draw, `Config.freeByte` of the count of draws (D14, log 5). -/
def Obligations.DirectWriteStoresOrGoesToScratch : Prop :=
  (∀ (s : State) (pos : Nat) (v : Byte), ∃ t,
    exec (.daWrite pos v) s = .next t ∧
    t = { s with bm := t.bm, scratch := if pos < s.cfg.digits then s.scratch else v, ret := .done } ∧
    (∀ a, t.cell a = if a = pos ∧ pos < s.cfg.digits then v else s.cell a) ∧
    (s.cfg.digits ≤ pos → t.bm = s.bm)) ∧
  (∀ (i : Instr) (s : State) (b : Byte),
    mapNext (fun t => { t with scratch := 0x00#8 }) (exec i { s with scratch := b }) =
      mapNext (fun t => { t with scratch := 0x00#8 }) (exec i s))

/-- R105: in range a write through a reference is indistinguishable from `write`; out of range it differs from it in `SCRATCH` only. -/
def Obligations.DirectWriteIsWriteButForScratch : Prop :=
  ∀ (s : State) (pos : Nat) (v : Byte),
    (pos < s.cfg.digits → exec (.daWrite pos v) s = exec (.write pos v) s) ∧
    (s.cfg.digits ≤ pos → exec (.daWrite pos v) s = mapNext (fun t => { t with scratch := v }) (exec (.write pos v) s))

/-- R30, R203: the content of the scratch cell is never observed: two states that differ in it only take steps that differ in it only. -/
def Obligations.ScratchContentIsNeverObserved : Prop :=
  ∀ (s : State) (b : Byte),
    mapNext (fun t => { t with scratch := 0x00#8 }) (step { s with scratch := b }) =
      mapNext (fun t => { t with scratch := 0x00#8 }) (step s)

/-! ### MultiplexEngine -/

/-- R186: `initialize` records the PinMap, makes every pin an output at its off level and sets `CUR`; it does not touch `BM`; after it
no digit line is energized and the segment image is 0, which with `startBlanked` false rests on the spec's own choice that the start
state is entered with no pin event (R117, D8, log 14; U8 records the other reading). No pin outside the PinMap is touched, and nothing else changes. -/
def Obligations.InitializeIsTheSecondResetStage : Prop :=
  ∀ (s : State) (dp sp : List PinId) (startBlanked : Bool),
    s.init = false → s.busy = false → PinMapLegal s.cfg dp sp → ∃ t,
      exec (.initializeEngine dp sp startBlanked) s = .next t ∧
      t.dpin = dp ∧ t.spin = sp ∧
      (∀ x ∈ dp ++ sp, t.direction x = some .out) ∧
      (∀ x ∈ dp, t.level x = some s.cfg.digitOff) ∧ (∀ x ∈ sp, t.level x = some s.cfg.segmentOff) ∧
      t.cur = (if startBlanked then .blanked else .showing 0) ∧ t.init = true ∧ t.bm = s.bm ∧
      t.energized = [] ∧ t.segmentImage = 0x00#8 ∧
      (∀ x, x ∉ dp ++ sp → t.direction x = s.direction x ∧ t.level x = s.level x) ∧
      t = { s with dpin := dp, spin := sp, cur := t.cur, init := true, dir := t.dir, lvl := t.lvl, trace := t.trace, ret := .done }

/-- R116, R207: `initialize` appends exactly two events per pin, its `SetDir` and then its off level, and none after the last of them.
The order among the pins is the spec's own choice (D7, log 13), and that entering the start state emits nothing (D8, log 14). -/
def Obligations.InitializeEmitsTwoEventsPerPin : Prop :=
  ∀ (s : State) (dp sp : List PinId) (startBlanked : Bool),
    s.init = false → s.busy = false → PinMapLegal s.cfg dp sp → ∃ t,
      exec (.initializeEngine dp sp startBlanked) s = .next t ∧
      t.trace = s.trace ++ dp.flatMap (fun x => [PinEvent.setDir x, PinEvent.setLevel x s.cfg.digitOff]) ++
        sp.flatMap (fun x => [PinEvent.setDir x, PinEvent.setLevel x s.cfg.segmentOff]) ∧
      t.trace.length = s.trace.length + 2 * (s.cfg.digits + s.cfg.segments)

/-- R116, R115, R170: when `initialize` is refused, and by which name (D9, D10, D21; the first test's place is the model's, log 31). -/
def Obligations.InitializeIsRefusedByName : Prop :=
  ∀ (s : State) (dp sp : List PinId) (startBlanked : Bool),
    (s.busy = true → exec (.initializeEngine dp sp startBlanked) s = .refused .reentered) ∧
    (s.busy = false → s.init = true → exec (.initializeEngine dp sp startBlanked) s = .refused .alreadyInitialized) ∧
    (s.busy = false → s.init = false → (dp.length ≠ s.cfg.digits ∨ sp.length ≠ s.cfg.segments) →
      exec (.initializeEngine dp sp startBlanked) s = .refused .badPinList) ∧
    (s.busy = false → s.init = false → dp.length = s.cfg.digits → sp.length = s.cfg.segments → ¬(dp ++ sp).Nodup →
      exec (.initializeEngine dp sp startBlanked) s = .refused .duplicatePin)

/-- R115, R168, R170: the other engine operations are refused while one is in flight and before `initialize` has completed, a tick among
them (D10, D21; the order of the two tests is the model's, log 31). -/
def Obligations.EngineOperationsAreGated : Prop :=
  ∀ (s : State) (i : Instr),
    (i = .advance ∨ i = .isBlank ∨ (∃ target, i = .advanceToDigit target) ∨ ∃ flag, i = .setBlank flag) →
    (s.busy = true → exec i s = .refused .reentered) ∧
    (s.busy = false → s.init = false → exec i s = .refused .notInitialized)

/-- R118 (its table), R119 to R123: the five cases of `advanceToDigit`, each with exactly its pin events in order and `CUR` after it;
nothing else changes. The case from Blanked to a digit is the spec's reading (D4, log 10), as are the order and completeness of the
segment events (D5, log 11) and the single sample (D6, log 12). -/
def Obligations.AdvanceToDigitEmitsTheEventsOfItsCase : Prop :=
  ∀ (s : State) (target : Nat), s.ready → PinMapLegal s.cfg s.dpin s.spin → s.cur.legal s.cfg.digits = true →
    (s.cfg.digits ≤ target → s.cur = .blanked → exec (.advanceToDigit target) s = .next { s with ret := .done }) ∧
    (∀ x, s.dpin[target]? = some x → s.cur = .blanked →
      exec (.advanceToDigit target) s = .next { (s.emitAll
        (s.spin.mapIdx (fun k y => PinEvent.setLevel y (s.cfg.segmentLevel ((s.cell target).getLsbD k))) ++
          [PinEvent.setLevel x s.cfg.digitOn])) with cur := .showing target, ret := .done }) ∧
    (∀ c x y, s.dpin[target]? = some x → s.dpin[c]? = some y → c ≠ target → s.cur = .showing c →
      exec (.advanceToDigit target) s = .next { (s.emitAll
        (PinEvent.setLevel y s.cfg.digitOff ::
          s.spin.mapIdx (fun k z => PinEvent.setLevel z (s.cfg.segmentLevel ((s.cell target).getLsbD k))) ++
          [PinEvent.setLevel x s.cfg.digitOn])) with cur := .showing target, ret := .done }) ∧
    (∀ x, s.dpin[target]? = some x → s.cur = .showing target →
      exec (.advanceToDigit target) s = .next { (s.emit (PinEvent.setLevel x s.cfg.digitOn)) with ret := .done }) ∧
    (∀ c y, s.cfg.digits ≤ target → s.dpin[c]? = some y → s.cur = .showing c →
      exec (.advanceToDigit target) s = .next { (s.emitAll
        (PinEvent.setLevel y s.cfg.digitOff ::
          s.spin.map (fun z => PinEvent.setLevel z s.cfg.segmentOff))) with cur := .blanked, ret := .done })

/-- R119: Blanked to blank does nothing, for every out-of-range target. -/
def Obligations.BlankedToBlankDoesNothing : Prop :=
  ∀ (s : State) (target : Nat), s.ready → s.cur = .blanked → s.cfg.digits ≤ target →
    exec (.advanceToDigit target) s = .next { s with ret := .done }

/-- R166: an out-of-range target is never an error, it blanks the display: no digit line is energized and the segments are dark. -/
def Obligations.OutOfRangeTargetBlanksTheDisplay : Prop :=
  ∀ (s : State) (target : Nat), Consistent s → DigitLinesSafe s → s.ready → s.cfg.digits ≤ target → ∃ t,
    exec (.advanceToDigit target) s = .next t ∧ t.cur = .blanked ∧ t.energized = [] ∧ t.segmentImage = 0x00#8

/-- R131(d), R38: a step that rewrites the segment lines to show a digit leaves exactly that digit's line energized and the low `S`
bits of its bitmap on the segment lines, each line at the level of its bit (R78, R125). -/
def Obligations.RewritingStepShowsTheSampledByte : Prop :=
  ∀ (s : State) (target : Nat), Consistent s → DigitLinesSafe s → s.ready → target < s.cfg.digits → s.cur ≠ .showing target → ∃ t,
    exec (.advanceToDigit target) s = .next t ∧ t.cur = .showing target ∧ t.energized = [target] ∧
    t.segmentImage = s.cfg.lowSegments (s.cell target) ∧
    ∀ k x, s.spin[k]? = some x →
      t.level x = some (if (s.cell target).getLsbD k then s.cfg.segmentOn else s.cfg.segmentOff)

/-- R131(b): no pin is written twice within one step. -/
def Obligations.NoPinIsWrittenTwiceInOneStep : Prop :=
  ∀ (s t : State) (target : Nat), PinMapLegal s.cfg s.dpin s.spin → exec (.advanceToDigit target) s = .next t →
    ∃ es, t.trace = s.trace ++ es ∧ (es.map PinEvent.pin).Nodup

/-- R126: `advance()` is `advanceToDigit` of the next digit, with the wrap, and does nothing from Blanked. -/
def Obligations.AdvanceStepsToTheNextDigit : Prop :=
  ∀ s : State, s.ready →
    (∀ d, s.cur = .showing d → exec .advance s = exec (.advanceToDigit ((d + 1) % s.cfg.digits)) s) ∧
    (∀ d, s.cur = .showing d → d < s.cfg.digits →
      ∃ t, exec .advance s = .next t ∧ t.cur = .showing (if d + 1 = s.cfg.digits then 0 else d + 1) ∧
        t = { s with cur := t.cur, lvl := t.lvl, trace := t.trace, ret := .done }) ∧
    (s.cur = .blanked → exec .advance s = .next { s with ret := .done })

/-- R127, R91: `setBlank(true)` is `advanceToDigit` of any out-of-range target, `setBlank(false)` is `advanceToDigit(0)`; both complete
from every state of the advance machine. -/
def Obligations.SetBlankJumpsToBlankOrDigitZero : Prop :=
  ∀ s : State, s.ready → 1 ≤ s.cfg.digits →
    (∀ target, s.cfg.digits ≤ target → exec (.setBlank true) s = exec (.advanceToDigit target) s) ∧
    exec (.setBlank false) s = exec (.advanceToDigit 0) s ∧
    ∀ flag, ∃ t, exec (.setBlank flag) s = .next t ∧ t.cur = (if flag then .blanked else .showing 0) ∧
      t = { s with cur := t.cur, lvl := t.lvl, trace := t.trace, ret := .done }

/-- R127, blank idempotence: a second `setBlank(true)` changes nothing at all. -/
def Obligations.BlankingTwiceIsBlankingOnce : Prop :=
  ∀ s : State, s.ready → ∃ t, exec (.setBlank true) s = .next t ∧ exec (.setBlank true) t = .next t

/-- R128, R28: `isBlank()` is true in Blanked and false in every Showing state; it changes no state and emits no event. -/
def Obligations.IsBlankReportsCurrentDigit : Prop :=
  ∀ s : State, s.ready →
    (s.cur = .blanked → exec .isBlank s = .next { s with ret := .bool true }) ∧
    (∀ d, s.cur = .showing d → exec .isBlank s = .next { s with ret := .bool false })

/-- R26: `CUR` after every operation that completes; the operations not named leave it as it was. -/
def Obligations.CurrentDigitAfterEveryOperation : Prop :=
  ∀ (s t : State) (i : Instr), exec i s = .next t →
    t.cur = match i with
      | .initializeEngine _ _ startBlanked => if startBlanked then .blanked else .showing 0
      | .advanceToDigit target => if target < s.cfg.digits then .showing target else .blanked
      | .advance => match s.cur with
        | .blanked => .blanked
        | .showing d => if (d + 1) % s.cfg.digits < s.cfg.digits then .showing ((d + 1) % s.cfg.digits) else .blanked
      | .setBlank flag => if flag then .blanked else if 0 < s.cfg.digits then .showing 0 else .blanked
      | .read _ => s.cur
      | .write _ _ => s.cur
      | .daRead _ => s.cur
      | .daWrite _ _ => s.cur
      | .isBlank => s.cur
      | .digitToBitmap _ _ => s.cur
      | .valueToDisplay _ _ _ _ => s.cur

/-! ### Encoder -/

/-- R80: the three glyph codes the source fixes, for every admissible glyph table. -/
def Obligations.SourceGlyphsAreTheirLiterals : Prop :=
  ∀ s : State, s.cfg.admissible = true →
    exec (.digitToBitmap 0 false) s = .next { s with ret := .byte 0b00111111#8 } ∧
    exec (.digitToBitmap 8 false) s = .next { s with ret := .byte 0b01111111#8 } ∧
    exec (.digitToBitmap 15 false) s = .next { s with ret := .byte 0b01110001#8 }

/-- R82: `digitToBitmap(v, dp) = GLYPH[v] | (dp ? 0x80 : 0x00)`, the decimal-point bit being bit 7, which no glyph has. -/
def Obligations.DecimalPointIsBitSevenOverTheGlyph : Prop :=
  ∀ (s : State) (value : Nat) (decimalPoint : Bool), value ≤ 15 →
    exec (.digitToBitmap value decimalPoint) s =
      .next { s with ret := .byte (s.cfg.glyph value ||| if decimalPoint then 0x80#8 else 0x00#8) } ∧
    (s.cfg.glyph value).getLsbD 7 = false ∧
    (s.cfg.glyph value ||| if decimalPoint then 0x80#8 else 0x00#8).getLsbD 7 = decimalPoint ∧
    ∀ k < 7, (s.cfg.glyph value ||| if decimalPoint then 0x80#8 else 0x00#8).getLsbD k = (s.cfg.glyph value).getLsbD k

/-- R163: a digit value above 15 is rejected, with no state change; the result is the failure indicator (its form: D15, log 20). That
`valueToDisplay` then keeps the cell's bitmap is the spec's inference (R150, C7, D17, log 21). -/
def Obligations.DigitAboveFifteenIsRejected : Prop :=
  (∀ (s : State) (value : Nat) (decimalPoint : Bool), 15 < value →
    exec (.digitToBitmap value decimalPoint) s = .next { s with ret := .fail }) ∧
  (∀ (s : State) (value radix : Nat) (zeros : Bool) (dpPos : Option Nat) (p : Nat),
    2 ≤ radix → p < s.cfg.digits → 15 < digitOf s.cfg.digits value radix p → ∃ t,
      exec (.valueToDisplay value radix zeros dpPos) s = .next t ∧ t.cell p = s.cell p)

/-- R148: the result of `valueToDisplay` is true iff `value < radix^N`, and depends on nothing else. -/
def Obligations.ValueFitsIffBelowTheRadixPower : Prop :=
  ∀ (s : State) (value radix : Nat) (zeros : Bool) (dpPos : Option Nat), 2 ≤ radix → ∃ t,
    exec (.valueToDisplay value radix zeros dpPos) s = .next t ∧
    t.ret = .bool (decide (value < radix ^ s.cfg.digits))

/-- R145, R146, R56, R150: what a whole `valueToDisplay` leaves in every cell, in closed form, for every radix: the digit of weight
`radix^(N-1-p)` goes to position `p` with its point, a leading zero left of the point is blank unless it is the rightmost digit (C1,
log 28), and a digit above 15 leaves its cell alone (D17, log 21); nothing but `BM` and the result changes. An omitted decimal point has
every position left of it (D18, log 22). -/
def Obligations.ValueToDisplayWritesEveryDigit : Prop :=
  ∀ (s : State) (value radix : Nat) (zeros : Bool) (dpPos : Option Nat), 2 ≤ radix → ∃ t,
    exec (.valueToDisplay value radix zeros dpPos) s = .next t ∧
    t = { s with bm := t.bm, ret := .bool (decide (value < radix ^ s.cfg.digits)) } ∧
    ∀ p, t.cell p =
      if p < s.cfg.digits ∧ digitOf s.cfg.digits value radix p ≤ 15 then
        if value < radix ^ (s.cfg.digits - 1 - p) ∧ zeros = false ∧ dpPos.all (fun q => decide (p < q)) = true ∧
            p + 1 ≠ s.cfg.digits then 0x00#8
        else s.cfg.glyph (digitOf s.cfg.digits value radix p) ||| if dpPos = some p then 0x80#8 else 0x00#8
      else s.cell p

/-- R146: which digits are blank and which are shown, for a radix that rejects none: blank iff the digit and everything above it are 0,
leading zeros were not requested, the position is strictly left of the decimal point, and it is not the rightmost one (C1, log 28;
an omitted decimal point: D18, log 22). -/
def Obligations.OnlyLeadingZerosLeftOfThePointAreBlank : Prop :=
  ∀ (s : State) (value radix : Nat) (zeros : Bool) (dpPos : Option Nat), 2 ≤ radix → radix ≤ 16 → ∃ t,
    exec (.valueToDisplay value radix zeros dpPos) s = .next t ∧
    ∀ p < s.cfg.digits,
      ((value < radix ^ (s.cfg.digits - 1 - p) ∧ zeros = false ∧ (∀ q, dpPos = some q → p < q) ∧ p + 1 ≠ s.cfg.digits) →
        t.cell p = 0x00#8) ∧
      (¬(value < radix ^ (s.cfg.digits - 1 - p) ∧ zeros = false ∧ (∀ q, dpPos = some q → p < q) ∧ p + 1 ≠ s.cfg.digits) →
        t.cell p = s.cfg.glyph (digitOf s.cfg.digits value radix p) ||| if dpPos = some p then 0x80#8 else 0x00#8)

/-- R149, R164: on overflow the result is false and all `N` low-order digits are shown, none suppressed; a digit above 15 leaves its
cell alone (R150). -/
def Obligations.OverflowShowsTheLowDigits : Prop :=
  ∀ (s : State) (value radix : Nat) (zeros : Bool) (dpPos : Option Nat), 2 ≤ radix → radix ^ s.cfg.digits ≤ value → ∃ t,
    exec (.valueToDisplay value radix zeros dpPos) s = .next t ∧ t.ret = .bool false ∧
    ∀ p < s.cfg.digits, t.cell p =
      if digitOf s.cfg.digits value radix p ≤ 15 then
        s.cfg.glyph (digitOf s.cfg.digits value radix p) ||| if dpPos = some p then 0x80#8 else 0x00#8
      else s.cell p

/-- R145, R150: a radix below 2 is refused, with nothing written (D17). -/
def Obligations.RadixBelowTwoIsRefused : Prop :=
  ∀ (s : State) (value radix : Nat) (zeros : Bool) (dpPos : Option Nat), radix < 2 →
    exec (.valueToDisplay value radix zeros dpPos) s = .refused .badRadix

/-! ### Frames and whole-machine rules -/

/-- R106, R140: no content operation changes `CUR`, the PinMap, a pin, the trace, `INIT`, `BUSY`, the configuration or a caller context. -/
def Obligations.ContentOperationsTouchOnlyBitmaps : Prop :=
  ∀ (s t : State) (i : Instr), i.isContent = true → exec i s = .next t →
    t = { s with bm := t.bm, scratch := t.scratch, ret := t.ret, draws := t.draws }

/-- R22: no engine operation writes `BM`, `SCRATCH`, the configuration or a caller context, and none but `initialize` the PinMap, a
direction or `INIT` (R33, R116). -/
def Obligations.EngineOperationsTouchOnlyCurrentDigitAndPins : Prop :=
  ∀ (s t : State) (i : Instr), i.isContent = false → exec i s = .next t →
    t = { s with dpin := t.dpin, spin := t.spin, cur := t.cur, init := t.init, dir := t.dir, lvl := t.lvl, trace := t.trace, ret := t.ret } ∧
    (s.init = true → t.dpin = s.dpin ∧ t.spin = s.spin ∧ t.dir = s.dir ∧ t.init = true)

/-- R22, R58: an operation that stores nothing keeps every cell, and one that stores keeps every cell but those it names. -/
def Obligations.CellsChangeOnlyWhereAnOperationStores : Prop :=
  ∀ (s t : State) (i : Instr) (a : Nat), exec i s = .next t →
    (match i with
      | .write pos _ => a ≠ pos ∨ s.cfg.digits ≤ pos
      | .daWrite pos _ => a ≠ pos ∨ s.cfg.digits ≤ pos
      | .valueToDisplay value radix _ _ => s.cfg.digits ≤ a ∨ 15 < digitOf s.cfg.digits value radix a
      | .read _ => True
      | .daRead _ => True
      | .initializeEngine _ _ _ => True
      | .advanceToDigit _ => True
      | .advance => True
      | .setBlank _ => True
      | .isBlank => True
      | .digitToBitmap _ _ => True) →
    t.cell a = s.cell a

/-- R29, R31, R36: no step changes the parameters, the trace is only ever appended to, and once initialised an instance stays so and
keeps its PinMap. -/
def Obligations.StepNeverChangesTheConfiguration : Prop :=
  ∀ s t : State, step s = .next t →
    t.cfg = s.cfg ∧ (∃ es, t.trace = s.trace ++ es) ∧
    (s.init = true → t.init = true ∧ t.dpin = s.dpin ∧ t.spin = s.spin)

/-- R33: "The core never reads pin state": two states that differ in their pin latches only take steps that differ in them only; in
particular they emit the same events. -/
def Obligations.PinStateIsNeverRead : Prop :=
  ∀ (s : State) (dir : List (PinId × Direction)) (lvl : List (PinId × Level)),
    mapNext (fun t => { t with dir := [], lvl := [] }) (step { s with dir := dir, lvl := lvl }) =
      mapNext (fun t => { t with dir := [], lvl := [] }) (step s)

/-- R40, R188: before `initialize` the value of `CUR` is never observed, so that the value the model's reset gives it (log 4) is in no
step's way: two such states that differ in it only take steps that differ in it only, and not at all once initialised. -/
def Obligations.CurrentDigitBeforeInitializeIsNeverObserved : Prop :=
  ∀ (s : State) (c : Cur), s.init = false →
    mapNext (fun t => if t.init then t else { t with cur := .blanked }) (step { s with cur := c }) =
      mapNext (fun t => if t.init then t else { t with cur := .blanked }) (step s)

/-- R77: without decimal-point support bit 7 of a bitmap drives nothing (D11, log 17): setting it changes no transition. -/
def Obligations.BitSevenDrivesNothingWithoutDecimalPoint : Prop :=
  ∀ (s : State) (pos target : Nat) (b : Byte), s.cfg.decimalPoint = false →
    mapNext (fun t => { t with bm := [] }) (exec (.advanceToDigit target) (s.store pos (b ||| 0x80#8))) =
      mapNext (fun t => { t with bm := [] }) (exec (.advanceToDigit target) (s.store pos b))

/-! ### Interleaving -/

/-- R63, R145: `N` unit turns of a context whose next call is a `valueToDisplay`, or fewer of them and then a whole turn, with nothing
between them, amount to the whole call. Units and turns are the spec's choice (D20) in the model's form (log 2, log 24). -/
def Obligations.UnitTurnsAmountToTheWholeCall : Prop :=
  ∀ (s : State) (a : Agent) (record : List Byte) (calls : List (List Byte)) (turns : List Turn)
    (value radix : Nat) (zeros : Bool) (dpPos : Option Nat) (k : Nat) (g : Grain),
    k < s.cfg.digits → (g = .whole ∨ k + 1 = s.cfg.digits) → 2 ≤ radix → (s.context a).flight = none → (s.context a).calls = record :: calls →
    decodeRecord record = .ok (.valueToDisplay value radix zeros dpPos) →
    s.turns = List.replicate k { agent := a, grain := .unit } ++ { agent := a, grain := g } :: turns →
    Sys2Proof.core.run (k + 1) s =
      exec (.valueToDisplay value radix zeros dpPos)
        ({ s with turns := turns }.setContext a { calls := calls, flight := none })

/-- R63(c), R32: an engine operation that has passed its gate and whose unit is still to come holds `BUSY`; a content call of the other
context in between is ordered before it, and the two turns amount to the operation (D20, log 24). -/
def Obligations.ContentCallDuringAnEngineOperationComesBeforeIt : Prop :=
  ∀ (s : State) (a b : Agent) (ra rb : List Byte) (ca cb : List (List Byte)) (turns : List Turn) (g : Grain) (i c : Instr),
    a ≠ b → s.busy = false → (s.context a).flight = none → (s.context b).flight = none →
    (s.context a).calls = ra :: ca → (s.context b).calls = rb :: cb →
    decodeRecord ra = .ok i → decodeRecord rb = .ok c → i.holdsBusy = true → s.startStop i = none → c.isContent = true →
    s.turns = { agent := a, grain := .unit } :: { agent := b, grain := .whole } :: { agent := a, grain := g } :: turns →
    Sys2Proof.core.run 3 s =
      match exec c (({ s with turns := turns }.setContext a { calls := ca, flight := none }).setContext b
          { calls := cb, flight := none }) with
      | .next t => exec i t
      | .fault r => .fault r
      | .refused r => .refused r

/-- R165, R168, R150: a call that `exec` refuses is refused by the turn that makes it, whether a whole one or one unit: no call that is
refused ever starts. The reasons are the spec's decisions (D9, D10, D13, D17, D21), the form of turns the model's (log 2, log 24). -/
def Obligations.RefusedCallIsRefusedAtItsStart : Prop :=
  ∀ (s : State) (a : Agent) (record : List Byte) (calls : List (List Byte)) (turns : List Turn) (g : Grain) (i : Instr) (r : Refusal),
    (s.context a).flight = none → (s.context a).calls = record :: calls → decodeRecord record = .ok i →
    s.turns = { agent := a, grain := g } :: turns → exec i s = .refused r → step s = .refused r

/-- R168: a tick that arrives before `initialize` is refused as `NotInitialized` when it arrives, on a whole turn, a unit turn, or the
default turn; in Blanked a tick does nothing (the two turns that a started tick may take: D20, log 24). -/
def Obligations.TickBeforeInitializeIsRefusedAndInBlankedDoesNothing : Prop :=
  (∀ (s : State) (record : List Byte) (calls : List (List Byte)) (turns : List Turn) (g : Grain),
    s.init = false → s.busy = false → s.tick = { calls := record :: calls, flight := none } → decodeRecord record = .ok .advance →
    (s.turns = { agent := .tick, grain := g } :: turns ∨ s.turns = [] ∧ s.main = Context.idle) →
    step s = .refused .notInitialized) ∧
  (∀ (s : State) (record : List Byte) (calls : List (List Byte)) (turns : List Turn),
    s.ready → s.cur = .blanked → s.tick = { calls := record :: calls, flight := none } → decodeRecord record = .ok .advance →
    s.turns = { agent := .tick, grain := .whole } :: turns →
    step s = .next { s with turns := turns, tick := { calls := calls, flight := none }, ret := .done }) ∧
  (∀ (s : State) (record : List Byte) (calls : List (List Byte)) (turns : List Turn) (g : Grain),
    s.ready → s.cur = .blanked → s.tick = { calls := record :: calls, flight := none } → decodeRecord record = .ok .advance →
    s.turns = { agent := .tick, grain := .unit } :: { agent := .tick, grain := g } :: turns →
    Sys2Proof.core.run 2 s = .next { s with turns := turns, tick := { calls := calls, flight := none }, ret := .done })

/-- R32, R170: an engine operation that is in flight finishes at its context's next turn, whatever came in between: it has passed its
gate when it started. `BUSY` is false then, and the context has nothing in flight (D20, D21, log 24). -/
def Obligations.EngineOperationInFlightFinishes : Prop :=
  ∀ (s : State) (t : Turn) (turns : List Turn) (i : Instr),
    Consistent s → (s.context t.agent).flight = some (.engine i) → s.turns = t :: turns → ∃ u,
      step s = .next u ∧ u.busy = false ∧ u.context t.agent = { calls := (s.context t.agent).calls, flight := none }

/-- R115, R170: while an engine operation is in flight, an engine operation of the other context is refused, whether its turn is a whole
one or one unit (D21). -/
def Obligations.ReenteringEngineOperationIsRefused : Prop :=
  ∀ (s : State) (a : Agent) (record : List Byte) (calls : List (List Byte)) (turns : List Turn) (g : Grain) (i : Instr),
    s.busy = true → (s.context a).flight = none → (s.context a).calls = record :: calls → decodeRecord record = .ok i →
    i.isContent = false → s.turns = { agent := a, grain := g } :: turns → step s = .refused .reentered

/-- R151, R61: ticks that fall between the writes of a `valueToDisplay` change neither what the later writes store nor the result. -/
def Obligations.TicksBetweenWritesLeaveTheDigitsAlone : Prop :=
  ∀ (s t : State) (n count : Nat) (j : DisplayJob), ticks n s = .next t →
    (displayUnits count j t).1 = (displayUnits count j s).1 ∧
    ∀ p, (displayUnits count j t).2.cell p = (displayUnits count j s).2.cell p

/-! ### Sequences of ticks -/

/-- R131(a), R27: `k` ticks from `Showing(d)` lead to `Showing((d + k) mod N)`: from `Showing(0)` `N` ticks visit 1, .., N-1, 0. -/
def Obligations.TicksVisitTheDigitsInOrder : Prop :=
  ∀ (s : State) (d k : Nat), s.ready → s.cur = .showing d → d < s.cfg.digits → ∃ t,
    ticks k s = .next t ∧ t.cur = .showing ((d + k) % s.cfg.digits)

/-- R197, R65, R131(d): on two digits or more, after every tick the digit that is showing has exactly its line energized and the
bitmap it had when the ticks began on the segment lines; so a bitmap stored for digit `p` shows at the latest after `N` ticks. -/
def Obligations.EveryTickShowsItsDigitsBitmap : Prop :=
  ∀ (s : State) (d k : Nat), Consistent s → DigitLinesSafe s → s.ready → s.cur = .showing d → 2 ≤ s.cfg.digits → 1 ≤ k → ∃ t,
    ticks k s = .next t ∧ t.cur = .showing ((d + k) % s.cfg.digits) ∧ t.energized = [(d + k) % s.cfg.digits] ∧
    t.segmentImage = s.cfg.lowSegments (s.cell ((d + k) % s.cfg.digits))

/-- R196: on one digit ticks never refresh the segment lines: they keep the image they had, whatever `BM[0]` holds, and the way to show
the digit is through Blanked. -/
def Obligations.OneDigitDisplayIsRefreshedOnlyThroughBlanked : Prop :=
  (∀ (s : State) (k : Nat), Consistent s → s.ready → s.cur = .showing 0 → s.cfg.digits = 1 → ∃ t,
    ticks k s = .next t ∧ t.cur = .showing 0 ∧ t.segmentImage = s.segmentImage) ∧
  (∀ s : State, Consistent s → DigitLinesSafe s → s.ready → s.cfg.digits = 1 → ∃ t u,
    exec (.setBlank true) s = .next t ∧ exec (.setBlank false) t = .next u ∧
    u.segmentImage = s.cfg.lowSegments (s.cell 0) ∧ u.energized = [0])

/-- R131(c), R168: a Blanked machine does nothing, however many ticks arrive. -/
def Obligations.TicksDoNothingInBlanked : Prop :=
  ∀ (s : State) (k : Nat), s.ready → s.cur = .blanked → 1 ≤ k → ticks k s = .next { s with ret := .done }
end

