-- ==== Sys2Proof/Laws/Codec.lean ====
section
/-! SUPPORT. Each reader of a call record undoes its writer, whatever follows, and reads nothing a writer does not write. -/

namespace Sys2Proof

@[simp] theorem followedBy_ok {α β : Type} (a : α) (rest : List Byte) (next : α → List Byte → Read β) :
    followedBy (.ok (a, rest)) next = next a rest := rfl

@[simp] theorem followedBy_error {α β : Type} (e : DecodeError) (next : α → List Byte → Read β) :
    followedBy (.error e) next = .error e := rfl

/-- A read that goes on answers only through what its first part answers. -/
theorem followedBy_eq_ok {α β : Type} {r : Read α} {next : α → List Byte → Read β} {x : β × List Byte}
    (h : followedBy r next = .ok x) : ∃ a rest, r = .ok (a, rest) ∧ next a rest = .ok x := by
  match r, h with
  | .ok (a, rest), h => exact ⟨a, rest, rfl, h⟩

@[simp] theorem takeByte_cons (b : Byte) (bs : List Byte) : takeByte (b :: bs) = .ok (b, bs) := rfl

@[simp] theorem takeBool_putBool (b : Bool) (bs : List Byte) : takeBool (putBool b ++ bs) = .ok (b, bs) := by
  cases b <;> simp [putBool, takeBool]

theorem takeNat_putNatFuel (fuel n : Nat) (h : n ≤ fuel) (bs : List Byte) :
    takeNat (putNatFuel fuel n ++ bs) = .ok (n, bs) := by
  induction fuel generalizing n with
  | zero => obtain rfl : n = 0 := by omega
            simp [putNatFuel, takeNat]
  | succ fuel ih =>
    by_cases hn : n < 128
    · have : n % 256 = n := Nat.mod_eq_of_lt (by omega)
      simp [putNatFuel, hn, takeNat, this]
    · have hb : (128 + n % 128) % 256 = 128 + n % 128 := Nat.mod_eq_of_lt (by omega)
      have hz : ¬(128 + n % 128 < 128) := by omega
      have hd : n / 128 ≠ 0 := by omega
      simp only [putNatFuel, hn, if_false, List.cons_append, takeNat, BitVec.toNat_ofNat, Nat.reducePow, hb, hz,
        ih (n / 128) (by omega), hd]
      congr 2
      omega

/-- A natural read from its own encoding is itself. -/
@[simp] theorem takeNat_putNat (n : Nat) (bs : List Byte) : takeNat (putNat n ++ bs) = .ok (n, bs) :=
  takeNat_putNatFuel n n le_rfl bs

@[simp] theorem takeNats_putNats (ns : List Nat) (bs : List Byte) :
    takeNats ns.length (ns.flatMap putNat ++ bs) = .ok (ns, bs) := by
  induction ns with
  | nil => rfl
  | cons n ns ih => simp [takeNats, ih]

@[simp] theorem takePins_putPins (ps : List PinId) (bs : List Byte) : takePins (putPins ps ++ bs) = .ok (ps, bs) := by
  simp [takePins, putPins]

@[simp] theorem takeOptional_putOptional (o : Option Nat) (bs : List Byte) :
    takeOptional (putOptional o ++ bs) = .ok (o, bs) := by
  cases o <;> simp [takeOptional, putOptional]

/-- More fuel than a natural needs changes nothing. -/
theorem putNatFuel_of_le (fuel n : Nat) (h : n ≤ fuel) : putNatFuel fuel n = putNat n := by
  have key : ∀ f g m, m ≤ f → m ≤ g → putNatFuel f m = putNatFuel g m := by
    intro f
    induction f with
    | zero => intro g m hf _; obtain rfl : m = 0 := by omega
              cases g <;> simp [putNatFuel]
    | succ f ih =>
      intro g m hf hg
      cases g with
      | zero => obtain rfl : m = 0 := by omega
                simp [putNatFuel]
      | succ g =>
        simp only [putNatFuel]
        split
        · rfl
        · rw [ih g (m / 128) (by omega) (by omega)]
  exact key fuel n n h le_rfl

/-- The encoding of a natural, group by group. -/
theorem putNat_eq (n : Nat) :
    putNat n = if n < 128 then [BitVec.ofNat 8 n] else BitVec.ofNat 8 (128 + n % 128) :: putNat (n / 128) := by
  rw [← putNatFuel_of_le (n + 1) n (by omega), putNatFuel, putNatFuel_of_le n (n / 128) (by omega)]

/-- What `takeNat` reads is what `putNat` writes. -/
theorem takeNat_eq_ok {bs rest : List Byte} {n : Nat} (h : takeNat bs = .ok (n, rest)) : bs = putNat n ++ rest := by
  induction bs generalizing n with
  | nil => simp [takeNat] at h
  | cons b bs ih =>
    have hb : b.toNat < 256 := b.isLt
    simp only [takeNat] at h
    split at h
    · rename_i hlt
      cases h
      rw [putNat_eq, if_pos hlt]
      simp
    · rename_i hge
      split at h
      · cases h
      · rename_i high rest' heq
        split at h
        · cases h
        · rename_i hhigh
          cases h
          have hmod : (b.toNat - 128 + 128 * high) % 128 = b.toNat - 128 := by omega
          have hdiv : (b.toNat - 128 + 128 * high) / 128 = high := by omega
          have hsum : 128 + (b.toNat - 128) = b.toNat := by omega
          rw [ih heq, putNat_eq (b.toNat - 128 + 128 * high), if_neg (by omega), hmod, hdiv, hsum]
          simp

theorem takeByte_eq_ok {bs rest : List Byte} {b : Byte} (h : takeByte bs = .ok (b, rest)) : bs = b :: rest := by
  cases bs with
  | nil => simp [takeByte] at h
  | cons c bs => simp only [takeByte_cons, Except.ok.injEq, Prod.mk.injEq] at h; rw [h.1, h.2]

theorem takeBool_eq_ok {bs rest : List Byte} {b : Bool} (h : takeBool bs = .ok (b, rest)) : bs = putBool b ++ rest := by
  cases bs with
  | nil => simp [takeBool] at h
  | cons c bs =>
    simp only [takeBool] at h
    split at h
    · cases h; simp_all [putBool]
    · split at h
      · cases h; simp_all [putBool]
      · cases h

theorem takeNats_eq_ok {count : Nat} {bs rest : List Byte} {ns : List Nat} (h : takeNats count bs = .ok (ns, rest)) :
    ns.length = count ∧ bs = ns.flatMap putNat ++ rest := by
  induction count generalizing bs ns with
  | zero => cases h; simp
  | succ count ih =>
    obtain ⟨n, bs', h1, h⟩ := followedBy_eq_ok h
    obtain ⟨ns', bs'', h2, h⟩ := followedBy_eq_ok h
    cases h
    obtain ⟨hl, hb⟩ := ih h2
    exact ⟨by simp [hl], by rw [takeNat_eq_ok h1, hb]; simp⟩

theorem takePins_eq_ok {bs rest : List Byte} {ps : List PinId} (h : takePins bs = .ok (ps, rest)) :
    bs = putPins ps ++ rest := by
  obtain ⟨count, bs', h1, h2⟩ := followedBy_eq_ok h
  obtain ⟨hl, hb⟩ := takeNats_eq_ok h2
  rw [takeNat_eq_ok h1, hb, putPins, hl]
  simp

theorem takeOptional_eq_ok {bs rest : List Byte} {o : Option Nat} (h : takeOptional bs = .ok (o, rest)) :
    bs = putOptional o ++ rest := by
  obtain ⟨given, bs', h1, h⟩ := followedBy_eq_ok h
  cases given with
  | false => cases h; exact takeBool_eq_ok h1
  | true =>
    obtain ⟨n, bs'', h2, h⟩ := followedBy_eq_ok h
    cases h
    rw [takeBool_eq_ok h1, takeNat_eq_ok h2]
    simp [putOptional]

end Sys2Proof
end

