-- ==== Sys2Proof/Laws/State.lean ====
section
/-! SUPPORT. One lemma per field and update of the state, so that no later proof unfolds a record update. -/

namespace Sys2Proof.Machine

variable (s : State)

/-! ### Completing an operation -/

@[simp] theorem State.returns_cfg (r : Result) : (s.returns r).cfg = s.cfg := rfl
@[simp] theorem State.returns_bm (r : Result) : (s.returns r).bm = s.bm := rfl
@[simp] theorem State.returns_cur (r : Result) : (s.returns r).cur = s.cur := rfl
@[simp] theorem State.returns_dpin (r : Result) : (s.returns r).dpin = s.dpin := rfl
@[simp] theorem State.returns_spin (r : Result) : (s.returns r).spin = s.spin := rfl
@[simp] theorem State.returns_scratch (r : Result) : (s.returns r).scratch = s.scratch := rfl
@[simp] theorem State.returns_init (r : Result) : (s.returns r).init = s.init := rfl
@[simp] theorem State.returns_busy (r : Result) : (s.returns r).busy = s.busy := rfl
@[simp] theorem State.returns_dir (r : Result) : (s.returns r).dir = s.dir := rfl
@[simp] theorem State.returns_lvl (r : Result) : (s.returns r).lvl = s.lvl := rfl
@[simp] theorem State.returns_trace (r : Result) : (s.returns r).trace = s.trace := rfl
@[simp] theorem State.returns_ret (r : Result) : (s.returns r).ret = r := rfl
@[simp] theorem State.returns_draws (r : Result) : (s.returns r).draws = s.draws := rfl
@[simp] theorem State.returns_main (r : Result) : (s.returns r).main = s.main := rfl
@[simp] theorem State.returns_tick (r : Result) : (s.returns r).tick = s.tick := rfl
@[simp] theorem State.returns_turns (r : Result) : (s.returns r).turns = s.turns := rfl

/-! ### CurrentDigit -/

@[simp] theorem State.setCur_cfg (c : Cur) : (s.setCur c).cfg = s.cfg := rfl
@[simp] theorem State.setCur_bm (c : Cur) : (s.setCur c).bm = s.bm := rfl
@[simp] theorem State.setCur_cur (c : Cur) : (s.setCur c).cur = c := rfl
@[simp] theorem State.setCur_dpin (c : Cur) : (s.setCur c).dpin = s.dpin := rfl
@[simp] theorem State.setCur_spin (c : Cur) : (s.setCur c).spin = s.spin := rfl
@[simp] theorem State.setCur_scratch (c : Cur) : (s.setCur c).scratch = s.scratch := rfl
@[simp] theorem State.setCur_init (c : Cur) : (s.setCur c).init = s.init := rfl
@[simp] theorem State.setCur_busy (c : Cur) : (s.setCur c).busy = s.busy := rfl
@[simp] theorem State.setCur_dir (c : Cur) : (s.setCur c).dir = s.dir := rfl
@[simp] theorem State.setCur_lvl (c : Cur) : (s.setCur c).lvl = s.lvl := rfl
@[simp] theorem State.setCur_trace (c : Cur) : (s.setCur c).trace = s.trace := rfl
@[simp] theorem State.setCur_ret (c : Cur) : (s.setCur c).ret = s.ret := rfl
@[simp] theorem State.setCur_draws (c : Cur) : (s.setCur c).draws = s.draws := rfl
@[simp] theorem State.setCur_main (c : Cur) : (s.setCur c).main = s.main := rfl
@[simp] theorem State.setCur_tick (c : Cur) : (s.setCur c).tick = s.tick := rfl
@[simp] theorem State.setCur_turns (c : Cur) : (s.setCur c).turns = s.turns := rfl

/-! ### The guarded store -/

@[simp] theorem State.store_cfg (p : Nat) (v : Byte) : (s.store p v).cfg = s.cfg := by
  unfold State.store; split <;> rfl
@[simp] theorem State.store_cur (p : Nat) (v : Byte) : (s.store p v).cur = s.cur := by
  unfold State.store; split <;> rfl
@[simp] theorem State.store_dpin (p : Nat) (v : Byte) : (s.store p v).dpin = s.dpin := by
  unfold State.store; split <;> rfl
@[simp] theorem State.store_spin (p : Nat) (v : Byte) : (s.store p v).spin = s.spin := by
  unfold State.store; split <;> rfl
@[simp] theorem State.store_scratch (p : Nat) (v : Byte) : (s.store p v).scratch = s.scratch := by
  unfold State.store; split <;> rfl
@[simp] theorem State.store_init (p : Nat) (v : Byte) : (s.store p v).init = s.init := by
  unfold State.store; split <;> rfl
@[simp] theorem State.store_busy (p : Nat) (v : Byte) : (s.store p v).busy = s.busy := by
  unfold State.store; split <;> rfl
@[simp] theorem State.store_dir (p : Nat) (v : Byte) : (s.store p v).dir = s.dir := by
  unfold State.store; split <;> rfl
@[simp] theorem State.store_lvl (p : Nat) (v : Byte) : (s.store p v).lvl = s.lvl := by
  unfold State.store; split <;> rfl
@[simp] theorem State.store_trace (p : Nat) (v : Byte) : (s.store p v).trace = s.trace := by
  unfold State.store; split <;> rfl
@[simp] theorem State.store_ret (p : Nat) (v : Byte) : (s.store p v).ret = s.ret := by
  unfold State.store; split <;> rfl
@[simp] theorem State.store_draws (p : Nat) (v : Byte) : (s.store p v).draws = s.draws := by
  unfold State.store; split <;> rfl
@[simp] theorem State.store_main (p : Nat) (v : Byte) : (s.store p v).main = s.main := by
  unfold State.store; split <;> rfl
@[simp] theorem State.store_tick (p : Nat) (v : Byte) : (s.store p v).tick = s.tick := by
  unfold State.store; split <;> rfl
@[simp] theorem State.store_turns (p : Nat) (v : Byte) : (s.store p v).turns = s.turns := by
  unfold State.store; split <;> rfl

theorem State.store_bm (p : Nat) (v : Byte) :
    (s.store p v).bm = if s.inRange p then s.bm.write p v else s.bm := by
  unfold State.store; split <;> rfl

/-! ### The unchecked write -/

@[simp] theorem State.memWrite_cfg (p : Nat) (v : Byte) : (s.memWrite p v).cfg = s.cfg := by
  unfold State.memWrite; split <;> rfl
@[simp] theorem State.memWrite_cur (p : Nat) (v : Byte) : (s.memWrite p v).cur = s.cur := by
  unfold State.memWrite; split <;> rfl
@[simp] theorem State.memWrite_dpin (p : Nat) (v : Byte) : (s.memWrite p v).dpin = s.dpin := by
  unfold State.memWrite; split <;> rfl
@[simp] theorem State.memWrite_spin (p : Nat) (v : Byte) : (s.memWrite p v).spin = s.spin := by
  unfold State.memWrite; split <;> rfl
@[simp] theorem State.memWrite_init (p : Nat) (v : Byte) : (s.memWrite p v).init = s.init := by
  unfold State.memWrite; split <;> rfl
@[simp] theorem State.memWrite_busy (p : Nat) (v : Byte) : (s.memWrite p v).busy = s.busy := by
  unfold State.memWrite; split <;> rfl
@[simp] theorem State.memWrite_dir (p : Nat) (v : Byte) : (s.memWrite p v).dir = s.dir := by
  unfold State.memWrite; split <;> rfl
@[simp] theorem State.memWrite_lvl (p : Nat) (v : Byte) : (s.memWrite p v).lvl = s.lvl := by
  unfold State.memWrite; split <;> rfl
@[simp] theorem State.memWrite_trace (p : Nat) (v : Byte) : (s.memWrite p v).trace = s.trace := by
  unfold State.memWrite; split <;> rfl
@[simp] theorem State.memWrite_ret (p : Nat) (v : Byte) : (s.memWrite p v).ret = s.ret := by
  unfold State.memWrite; split <;> rfl
@[simp] theorem State.memWrite_draws (p : Nat) (v : Byte) : (s.memWrite p v).draws = s.draws := by
  unfold State.memWrite; split <;> rfl
@[simp] theorem State.memWrite_main (p : Nat) (v : Byte) : (s.memWrite p v).main = s.main := by
  unfold State.memWrite; split <;> rfl
@[simp] theorem State.memWrite_tick (p : Nat) (v : Byte) : (s.memWrite p v).tick = s.tick := by
  unfold State.memWrite; split <;> rfl
@[simp] theorem State.memWrite_turns (p : Nat) (v : Byte) : (s.memWrite p v).turns = s.turns := by
  unfold State.memWrite; split <;> rfl

theorem State.memWrite_bm (p : Nat) (v : Byte) :
    (s.memWrite p v).bm = if s.inRange p then s.bm.write p v else s.bm := by
  unfold State.memWrite; split <;> rfl

theorem State.memWrite_scratch (p : Nat) (v : Byte) :
    (s.memWrite p v).scratch = if s.inRange p then s.scratch else v := by
  unfold State.memWrite; split <;> rfl

/-! ### The unchecked read -/

@[simp] theorem State.memRead_cfg (p : Nat) : ((s.memRead p).2).cfg = s.cfg := by
  unfold State.memRead; split <;> rfl
@[simp] theorem State.memRead_bm (p : Nat) : ((s.memRead p).2).bm = s.bm := by
  unfold State.memRead; split <;> rfl
@[simp] theorem State.memRead_cur (p : Nat) : ((s.memRead p).2).cur = s.cur := by
  unfold State.memRead; split <;> rfl
@[simp] theorem State.memRead_dpin (p : Nat) : ((s.memRead p).2).dpin = s.dpin := by
  unfold State.memRead; split <;> rfl
@[simp] theorem State.memRead_spin (p : Nat) : ((s.memRead p).2).spin = s.spin := by
  unfold State.memRead; split <;> rfl
@[simp] theorem State.memRead_scratch (p : Nat) : ((s.memRead p).2).scratch = s.scratch := by
  unfold State.memRead; split <;> rfl
@[simp] theorem State.memRead_init (p : Nat) : ((s.memRead p).2).init = s.init := by
  unfold State.memRead; split <;> rfl
@[simp] theorem State.memRead_busy (p : Nat) : ((s.memRead p).2).busy = s.busy := by
  unfold State.memRead; split <;> rfl
@[simp] theorem State.memRead_dir (p : Nat) : ((s.memRead p).2).dir = s.dir := by
  unfold State.memRead; split <;> rfl
@[simp] theorem State.memRead_lvl (p : Nat) : ((s.memRead p).2).lvl = s.lvl := by
  unfold State.memRead; split <;> rfl
@[simp] theorem State.memRead_trace (p : Nat) : ((s.memRead p).2).trace = s.trace := by
  unfold State.memRead; split <;> rfl
@[simp] theorem State.memRead_ret (p : Nat) : ((s.memRead p).2).ret = s.ret := by
  unfold State.memRead; split <;> rfl
@[simp] theorem State.memRead_main (p : Nat) : ((s.memRead p).2).main = s.main := by
  unfold State.memRead; split <;> rfl
@[simp] theorem State.memRead_tick (p : Nat) : ((s.memRead p).2).tick = s.tick := by
  unfold State.memRead; split <;> rfl
@[simp] theorem State.memRead_turns (p : Nat) : ((s.memRead p).2).turns = s.turns := by
  unfold State.memRead; split <;> rfl

/-! ### One pin event -/

@[simp] theorem State.emit_cfg (e : PinEvent) : (s.emit e).cfg = s.cfg := by cases e <;> rfl
@[simp] theorem State.emit_bm (e : PinEvent) : (s.emit e).bm = s.bm := by cases e <;> rfl
@[simp] theorem State.emit_cur (e : PinEvent) : (s.emit e).cur = s.cur := by cases e <;> rfl
@[simp] theorem State.emit_dpin (e : PinEvent) : (s.emit e).dpin = s.dpin := by cases e <;> rfl
@[simp] theorem State.emit_spin (e : PinEvent) : (s.emit e).spin = s.spin := by cases e <;> rfl
@[simp] theorem State.emit_scratch (e : PinEvent) : (s.emit e).scratch = s.scratch := by cases e <;> rfl
@[simp] theorem State.emit_init (e : PinEvent) : (s.emit e).init = s.init := by cases e <;> rfl
@[simp] theorem State.emit_busy (e : PinEvent) : (s.emit e).busy = s.busy := by cases e <;> rfl
@[simp] theorem State.emit_ret (e : PinEvent) : (s.emit e).ret = s.ret := by cases e <;> rfl
@[simp] theorem State.emit_draws (e : PinEvent) : (s.emit e).draws = s.draws := by cases e <;> rfl
@[simp] theorem State.emit_main (e : PinEvent) : (s.emit e).main = s.main := by cases e <;> rfl
@[simp] theorem State.emit_tick (e : PinEvent) : (s.emit e).tick = s.tick := by cases e <;> rfl
@[simp] theorem State.emit_turns (e : PinEvent) : (s.emit e).turns = s.turns := by cases e <;> rfl

@[simp] theorem State.emit_trace (e : PinEvent) : (s.emit e).trace = s.trace ++ [e] := by cases e <;> rfl

/-! ### Pin events in order -/

@[simp] theorem State.emitAll_nil : s.emitAll [] = s := rfl
@[simp] theorem State.emitAll_cons (e : PinEvent) (es : List PinEvent) :
    s.emitAll (e :: es) = (s.emit e).emitAll es := rfl
@[simp] theorem State.emitAll_cfg (es : List PinEvent) : (s.emitAll es).cfg = s.cfg := by
  induction es generalizing s <;> simp [*]
@[simp] theorem State.emitAll_bm (es : List PinEvent) : (s.emitAll es).bm = s.bm := by
  induction es generalizing s <;> simp [*]
@[simp] theorem State.emitAll_cur (es : List PinEvent) : (s.emitAll es).cur = s.cur := by
  induction es generalizing s <;> simp [*]
@[simp] theorem State.emitAll_dpin (es : List PinEvent) : (s.emitAll es).dpin = s.dpin := by
  induction es generalizing s <;> simp [*]
@[simp] theorem State.emitAll_spin (es : List PinEvent) : (s.emitAll es).spin = s.spin := by
  induction es generalizing s <;> simp [*]
@[simp] theorem State.emitAll_scratch (es : List PinEvent) : (s.emitAll es).scratch = s.scratch := by
  induction es generalizing s <;> simp [*]
@[simp] theorem State.emitAll_init (es : List PinEvent) : (s.emitAll es).init = s.init := by
  induction es generalizing s <;> simp [*]
@[simp] theorem State.emitAll_busy (es : List PinEvent) : (s.emitAll es).busy = s.busy := by
  induction es generalizing s <;> simp [*]
@[simp] theorem State.emitAll_ret (es : List PinEvent) : (s.emitAll es).ret = s.ret := by
  induction es generalizing s <;> simp [*]
@[simp] theorem State.emitAll_draws (es : List PinEvent) : (s.emitAll es).draws = s.draws := by
  induction es generalizing s <;> simp [*]
@[simp] theorem State.emitAll_main (es : List PinEvent) : (s.emitAll es).main = s.main := by
  induction es generalizing s <;> simp [*]
@[simp] theorem State.emitAll_tick (es : List PinEvent) : (s.emitAll es).tick = s.tick := by
  induction es generalizing s <;> simp [*]
@[simp] theorem State.emitAll_turns (es : List PinEvent) : (s.emitAll es).turns = s.turns := by
  induction es generalizing s <;> simp [*]
@[simp] theorem State.emitAll_trace (es : List PinEvent) : (s.emitAll es).trace = s.trace ++ es := by
  induction es generalizing s <;> simp [*]

/-! ### The contexts -/

@[simp] theorem State.setContext_cfg (a : Agent) (c : Context) : (s.setContext a c).cfg = s.cfg := by
  cases a <;> rfl
@[simp] theorem State.setContext_bm (a : Agent) (c : Context) : (s.setContext a c).bm = s.bm := by
  cases a <;> rfl
@[simp] theorem State.setContext_cur (a : Agent) (c : Context) : (s.setContext a c).cur = s.cur := by
  cases a <;> rfl
@[simp] theorem State.setContext_dpin (a : Agent) (c : Context) : (s.setContext a c).dpin = s.dpin := by
  cases a <;> rfl
@[simp] theorem State.setContext_spin (a : Agent) (c : Context) : (s.setContext a c).spin = s.spin := by
  cases a <;> rfl
@[simp] theorem State.setContext_scratch (a : Agent) (c : Context) : (s.setContext a c).scratch = s.scratch := by
  cases a <;> rfl
@[simp] theorem State.setContext_init (a : Agent) (c : Context) : (s.setContext a c).init = s.init := by
  cases a <;> rfl
@[simp] theorem State.setContext_busy (a : Agent) (c : Context) : (s.setContext a c).busy = s.busy := by
  cases a <;> rfl
@[simp] theorem State.setContext_dir (a : Agent) (c : Context) : (s.setContext a c).dir = s.dir := by
  cases a <;> rfl
@[simp] theorem State.setContext_lvl (a : Agent) (c : Context) : (s.setContext a c).lvl = s.lvl := by
  cases a <;> rfl
@[simp] theorem State.setContext_trace (a : Agent) (c : Context) : (s.setContext a c).trace = s.trace := by
  cases a <;> rfl
@[simp] theorem State.setContext_ret (a : Agent) (c : Context) : (s.setContext a c).ret = s.ret := by
  cases a <;> rfl
@[simp] theorem State.setContext_draws (a : Agent) (c : Context) : (s.setContext a c).draws = s.draws := by
  cases a <;> rfl
@[simp] theorem State.setContext_turns (a : Agent) (c : Context) : (s.setContext a c).turns = s.turns := by
  cases a <;> rfl
@[simp] theorem State.context_setContext (a : Agent) (c : Context) : (s.setContext a c).context a = c := by
  cases a <;> rfl
theorem State.context_setContext_ne {a b : Agent} (c : Context) (h : b ≠ a) :
    (s.setContext a c).context b = s.context b := by
  cases a <;> cases b <;> first | rfl | exact absurd rfl h

@[simp] theorem State.setFlight_cfg (a : Agent) (f : Option Flight) : (s.setFlight a f).cfg = s.cfg := by
  cases a <;> rfl
@[simp] theorem State.setFlight_bm (a : Agent) (f : Option Flight) : (s.setFlight a f).bm = s.bm := by
  cases a <;> rfl
@[simp] theorem State.setFlight_cur (a : Agent) (f : Option Flight) : (s.setFlight a f).cur = s.cur := by
  cases a <;> rfl
@[simp] theorem State.setFlight_dpin (a : Agent) (f : Option Flight) : (s.setFlight a f).dpin = s.dpin := by
  cases a <;> rfl
@[simp] theorem State.setFlight_spin (a : Agent) (f : Option Flight) : (s.setFlight a f).spin = s.spin := by
  cases a <;> rfl
@[simp] theorem State.setFlight_scratch (a : Agent) (f : Option Flight) : (s.setFlight a f).scratch = s.scratch := by
  cases a <;> rfl
@[simp] theorem State.setFlight_init (a : Agent) (f : Option Flight) : (s.setFlight a f).init = s.init := by
  cases a <;> rfl
@[simp] theorem State.setFlight_busy (a : Agent) (f : Option Flight) : (s.setFlight a f).busy = s.busy := by
  cases a <;> rfl
@[simp] theorem State.setFlight_dir (a : Agent) (f : Option Flight) : (s.setFlight a f).dir = s.dir := by
  cases a <;> rfl
@[simp] theorem State.setFlight_lvl (a : Agent) (f : Option Flight) : (s.setFlight a f).lvl = s.lvl := by
  cases a <;> rfl
@[simp] theorem State.setFlight_trace (a : Agent) (f : Option Flight) : (s.setFlight a f).trace = s.trace := by
  cases a <;> rfl
@[simp] theorem State.setFlight_ret (a : Agent) (f : Option Flight) : (s.setFlight a f).ret = s.ret := by
  cases a <;> rfl
@[simp] theorem State.setFlight_draws (a : Agent) (f : Option Flight) : (s.setFlight a f).draws = s.draws := by
  cases a <;> rfl
@[simp] theorem State.setFlight_turns (a : Agent) (f : Option Flight) : (s.setFlight a f).turns = s.turns := by
  cases a <;> rfl

@[simp] theorem State.popCall_cfg (a : Agent) (cs : List (List Byte)) : (s.popCall a cs).cfg = s.cfg := by
  cases a <;> rfl
@[simp] theorem State.popCall_bm (a : Agent) (cs : List (List Byte)) : (s.popCall a cs).bm = s.bm := by
  cases a <;> rfl
@[simp] theorem State.popCall_cur (a : Agent) (cs : List (List Byte)) : (s.popCall a cs).cur = s.cur := by
  cases a <;> rfl
@[simp] theorem State.popCall_dpin (a : Agent) (cs : List (List Byte)) : (s.popCall a cs).dpin = s.dpin := by
  cases a <;> rfl
@[simp] theorem State.popCall_spin (a : Agent) (cs : List (List Byte)) : (s.popCall a cs).spin = s.spin := by
  cases a <;> rfl
@[simp] theorem State.popCall_scratch (a : Agent) (cs : List (List Byte)) : (s.popCall a cs).scratch = s.scratch := by
  cases a <;> rfl
@[simp] theorem State.popCall_init (a : Agent) (cs : List (List Byte)) : (s.popCall a cs).init = s.init := by
  cases a <;> rfl
@[simp] theorem State.popCall_busy (a : Agent) (cs : List (List Byte)) : (s.popCall a cs).busy = s.busy := by
  cases a <;> rfl
@[simp] theorem State.popCall_dir (a : Agent) (cs : List (List Byte)) : (s.popCall a cs).dir = s.dir := by
  cases a <;> rfl
@[simp] theorem State.popCall_lvl (a : Agent) (cs : List (List Byte)) : (s.popCall a cs).lvl = s.lvl := by
  cases a <;> rfl
@[simp] theorem State.popCall_trace (a : Agent) (cs : List (List Byte)) : (s.popCall a cs).trace = s.trace := by
  cases a <;> rfl
@[simp] theorem State.popCall_ret (a : Agent) (cs : List (List Byte)) : (s.popCall a cs).ret = s.ret := by
  cases a <;> rfl
@[simp] theorem State.popCall_draws (a : Agent) (cs : List (List Byte)) : (s.popCall a cs).draws = s.draws := by
  cases a <;> rfl
@[simp] theorem State.popCall_turns (a : Agent) (cs : List (List Byte)) : (s.popCall a cs).turns = s.turns := by
  cases a <;> rfl

end Sys2Proof.Machine
end

