-- ==== Sys2Proof/Laws/Memory.lean ====
section
/-! SUPPORT. Sparse tables and the bitmap array: reading after a write, and the canonical form kept. -/

namespace Sys2Proof.Machine

variable {α : Type}

theorem getKey_putKey (l : List (Nat × α)) (a b : Nat) (v : α) :
    getKey (putKey l a v) b = if b = a then some v else getKey l b := by
  induction l with
  | nil => simp [putKey, getKey]
  | cons c l ih =>
    obtain ⟨k, w⟩ := c
    simp only [putKey]
    split
    · simp [getKey]
    · split
      · subst a
        simp only [getKey]
        split <;> rfl
      · simp only [getKey, ih]
        split <;> split <;> simp_all

theorem getKey_dropKey (l : List (Nat × α)) (a b : Nat) :
    getKey (dropKey l a) b = if b = a then none else getKey l b := by
  induction l with
  | nil => simp [dropKey, getKey]
  | cons c l ih =>
    obtain ⟨k, w⟩ := c
    unfold dropKey at ih ⊢
    by_cases hk : k = a
    · subst k
      simp only [List.filter_cons, bne_self_eq_false, Bool.false_eq_true, if_false, ih, getKey]
      split <;> rfl
    · simp only [List.filter_cons, bne_iff_ne.mpr hk, if_true, getKey, ih]
      split <;> split <;> simp_all

/-- A key of a table after a put was there before or is the one put. -/
theorem mem_putKey {l : List (Nat × α)} {a : Nat} {v : α} {c : Nat × α} (h : c ∈ putKey l a v) :
    c = (a, v) ∨ c ∈ l := by
  induction l with
  | nil => simpa [putKey] using h
  | cons d l ih =>
    obtain ⟨k, w⟩ := d
    simp only [putKey] at h
    split at h
    · simpa using h
    · split at h
      · rcases List.mem_cons.mp h with h | h
        · exact .inl h
        · exact .inr (List.mem_cons_of_mem _ h)
      · rcases List.mem_cons.mp h with h | h
        · exact .inr (h ▸ List.mem_cons_self)
        · exact (ih h).imp_right (List.mem_cons_of_mem _)

theorem mem_dropKey {l : List (Nat × α)} {a : Nat} {c : Nat × α} : c ∈ dropKey l a ↔ c ∈ l ∧ c.1 ≠ a := by
  simp [dropKey]

theorem rising_putKey {l : List (Nat × α)} (h : Rising l) (a : Nat) (v : α) : Rising (putKey l a v) := by
  induction l with
  | nil => simp [Rising, putKey]
  | cons d l ih =>
    obtain ⟨k, w⟩ := d
    simp only [Rising, List.map_cons, List.pairwise_cons] at h
    obtain ⟨hk, hl⟩ := h
    simp only [putKey]
    split
    · rename_i ha
      simp only [Rising, List.map_cons, List.pairwise_cons, List.mem_cons]
      refine ⟨?_, hk, hl⟩
      rintro x (rfl | hx)
      · exact ha
      · exact ha.trans (hk x hx)
    · split
      · subst a
        exact List.pairwise_cons.mpr ⟨hk, hl⟩
      · rename_i h1 h2
        simp only [Rising, List.map_cons, List.pairwise_cons]
        refine ⟨fun x hx => ?_, ih hl⟩
        obtain ⟨c, hc, rfl⟩ := List.mem_map.mp hx
        rcases mem_putKey hc with rfl | hc
        · exact lt_of_le_of_ne (not_lt.mp h1) (Ne.symm h2)
        · exact hk _ (List.mem_map_of_mem hc)

theorem rising_dropKey {l : List (Nat × α)} (h : Rising l) (a : Nat) : Rising (dropKey l a) :=
  List.Pairwise.sublist (List.Sublist.map _ List.filter_sublist) h

/-- A read after a write gives the value written at its position, and what was there at any other. -/
theorem Memory.read_write (m : Memory) (p q : Nat) (v : Byte) :
    (m.write p v).read q = if q = p then v else m.read q := by
  unfold Memory.write Memory.read
  split
  · rename_i hv
    rw [getKey_dropKey]
    split
    · exact hv.symm
    · rfl
  · rw [getKey_putKey]
    split <;> rfl

/-- A write keeps the canonical form. -/
theorem Memory.wf_write {m : Memory} (h : m.wf) (p : Nat) (v : Byte) : (m.write p v).wf := by
  unfold Memory.write
  split
  · exact ⟨rising_dropKey h.1 p, fun c hc => h.2 c (mem_dropKey.mp hc).1⟩
  · rename_i hv
    refine ⟨rising_putKey h.1 p v, fun c hc => ?_⟩
    rcases mem_putKey hc with rfl | hc
    · exact hv
    · exact h.2 c hc

theorem Memory.mem_write {m : Memory} {p : Nat} {v : Byte} {c : Host.Cell} (h : c ∈ m.write p v) :
    c.1 = p ∨ c ∈ m := by
  unfold Memory.write at h
  split at h
  · exact .inr (mem_dropKey.mp h).1
  · rcases mem_putKey h with rfl | h
    · exact .inl rfl
    · exact .inr h

/-! ### The operations of a state over its bitmaps -/

variable (s : State)

/-- What the guarded store does to every cell. -/
theorem State.cell_store (p q : Nat) (v : Byte) :
    (s.store p v).cell q = if q = p ∧ s.inRange p then v else s.cell q := by
  unfold State.cell
  rw [State.store_bm]
  by_cases h : s.inRange p
  · simp [h, Memory.read_write]
  · simp [h]

/-- What the unchecked write does to every cell. -/
theorem State.cell_memWrite (p q : Nat) (v : Byte) :
    (s.memWrite p v).cell q = if q = p ∧ s.inRange p then v else s.cell q := by
  unfold State.cell
  rw [State.memWrite_bm]
  by_cases h : s.inRange p
  · simp [h, Memory.read_write]
  · simp [h]

theorem State.store_wf (h : s.bm.wf) (p : Nat) (v : Byte) : (s.store p v).bm.wf := by
  rw [State.store_bm]; split
  · exact Memory.wf_write h p v
  · exact h

theorem State.memWrite_wf (h : s.bm.wf) (p : Nat) (v : Byte) : (s.memWrite p v).bm.wf := by
  rw [State.memWrite_bm]; split
  · exact Memory.wf_write h p v
  · exact h

theorem State.store_positions (h : ∀ c ∈ s.bm, c.1 < s.cfg.digits) (p : Nat) (v : Byte) :
    ∀ c ∈ (s.store p v).bm, c.1 < s.cfg.digits := by
  rw [State.store_bm]; split
  · rename_i hp
    intro c hc
    rcases Memory.mem_write hc with rfl | hc
    · exact hp
    · exact h c hc
  · exact h

theorem State.memWrite_positions (h : ∀ c ∈ s.bm, c.1 < s.cfg.digits) (p : Nat) (v : Byte) :
    ∀ c ∈ (s.memWrite p v).bm, c.1 < s.cfg.digits := by
  rw [State.memWrite_bm]; split
  · rename_i hp
    intro c hc
    rcases Memory.mem_write hc with rfl | hc
    · exact hp
    · exact h c hc
  · exact h

/-- The bitmaps right after construction are in canonical form, and every cell reads 0x00. -/
theorem powerOn_wf (p : Params) : (State.powerOn p).bm.wf := by simp [State.powerOn, Memory.wf, Rising]

theorem powerOn_cell (p : Params) (q : Nat) : (State.powerOn p).cell q = 0x00#8 := rfl

end Sys2Proof.Machine
end

