-- ==== Sys2Proof/Laws/Encoder.lean ====
section
/-! SUPPORT. What the Encoder operations and their units can do (42_encoder.md). -/

namespace Sys2Proof.Machine

/-- A unit writes bitmaps only. -/
theorem State.storeDigit_eq (s : State) (p : Nat) (o : Option Byte) :
    s.storeDigit p o = { s with bm := (s.storeDigit p o).bm } := by
  cases o with
  | none => rfl
  | some b => by_cases h : s.inRange p <;> simp [State.storeDigit, State.store, h]

theorem State.cell_storeDigit (s : State) (p q : Nat) (o : Option Byte) :
    (s.storeDigit p o).cell q = if q = p ∧ s.inRange p then o.getD (s.cell q) else s.cell q := by
  cases o with
  | none => simp [State.storeDigit]
  | some b => exact State.cell_store s p q b

/-- Units write bitmaps only. -/
theorem displayUnit_eq (j : DisplayJob) (s : State) : (displayUnit j s).2 = { s with bm := (displayUnit j s).2.bm } := by
  unfold displayUnit
  split
  · rfl
  · exact State.storeDigit_eq _ _ _

@[simp] theorem displayUnits_zero (j : DisplayJob) (s : State) : displayUnits 0 j s = (j, s) := rfl

theorem displayUnits_succ (n : Nat) (j : DisplayJob) (s : State) :
    displayUnits (n + 1) j s = displayUnits n (displayUnit j s).1 (displayUnit j s).2 := rfl

theorem displayUnits_eq (n : Nat) (j : DisplayJob) (s : State) :
    (displayUnits n j s).2 = { s with bm := (displayUnits n j s).2.bm } := by
  induction n generalizing j s with
  | zero => rfl
  | succ n ih =>
    rw [displayUnits_succ, ih, displayUnit_eq j s]

/-- Units in a row are units one after the other. -/
theorem displayUnits_add (m n : Nat) (j : DisplayJob) (s : State) :
    displayUnits (m + n) j s = displayUnits n (displayUnits m j s).1 (displayUnits m j s).2 := by
  induction m generalizing j s with
  | zero => rw [Nat.zero_add, displayUnits_zero]
  | succ m ih => rw [Nat.succ_add, displayUnits_succ, ih, displayUnits_succ]

/-- Units keep the canonical form, and list no position outside `0 .. N-1`. -/
theorem displayUnits_wf (n : Nat) (j : DisplayJob) (s : State) (h : s.bm.wf) (hp : ∀ c ∈ s.bm, c.1 < s.cfg.digits) :
    (displayUnits n j s).2.bm.wf ∧ ∀ c ∈ (displayUnits n j s).2.bm, c.1 < s.cfg.digits := by
  have one : ∀ (p : Nat) (o : Option Byte) (s : State), s.bm.wf → (∀ c ∈ s.bm, c.1 < s.cfg.digits) →
      (s.storeDigit p o).bm.wf ∧ ∀ c ∈ (s.storeDigit p o).bm, c.1 < s.cfg.digits := by
    intro p o s h hp
    cases o with
    | none => exact ⟨h, hp⟩
    | some b => exact ⟨State.store_wf s h p b, State.store_positions s hp p b⟩
  induction n generalizing j s with
  | zero => exact ⟨h, hp⟩
  | succ n ih =>
    have hu : (displayUnit j s).2.bm.wf ∧ ∀ c ∈ (displayUnit j s).2.bm, c.1 < s.cfg.digits := by
      unfold displayUnit
      split
      · exact ⟨h, hp⟩
      · exact one _ _ s h hp
    have hcfg : (displayUnit j s).2.cfg = s.cfg := by rw [displayUnit_eq]
    have := ih (displayUnit j s).1 (displayUnit j s).2 hu.1 (by rw [hcfg]; exact hu.2)
    rwa [hcfg] at this

/-- Units depend on the configuration and the bitmaps only. -/
theorem displayUnits_congr (n : Nat) (j : DisplayJob) {s t : State} (hc : t.cfg = s.cfg) (hb : t.bm = s.bm) :
    (displayUnits n j t).1 = (displayUnits n j s).1 ∧ (displayUnits n j t).2.bm = (displayUnits n j s).2.bm := by
  induction n generalizing j s t with
  | zero => exact ⟨rfl, hb⟩
  | succ n ih =>
    rw [displayUnits_succ, displayUnits_succ]
    have e1 : (displayUnit j t).1 = (displayUnit j s).1 := by unfold displayUnit; split <;> rfl
    have e2 : (displayUnit j t).2.bm = (displayUnit j s).2.bm := by
      unfold displayUnit
      split
      · exact hb
      · dsimp only
        rw [hc]
        generalize cellBitmap _ _ _ _ _ _ = o
        cases o with
        | none => exact hb
        | some b => simp only [State.storeDigit, State.store_bm, State.inRange, hc, hb]
    rw [e1]
    exact ih (displayUnit j s).1 (by rw [displayUnit_eq, displayUnit_eq j s]; exact hc) e2

/-- A whole run of units: every cell below `left` gets what its digit asks for, and the rest is what the digits leave. -/
theorem displayUnits_all (j : DisplayJob) (s : State) (n : Nat) (hn : j.left = n) (hd : n ≤ s.cfg.digits) :
    (displayUnits n j s).1.rest = j.rest / j.radix ^ n ∧ (displayUnits n j s).1.left = 0 ∧
    ∀ p, (displayUnits n j s).2.cell p =
      if p < n then
        (cellBitmap s.cfg p (j.rest / j.radix ^ (n - 1 - p) % j.radix) (j.rest / j.radix ^ (n - p))
          j.showLeadingZeros j.decimalPointPosition).getD (s.cell p)
      else s.cell p := by
  induction n generalizing j s with
  | zero => simp [hn]
  | succ n ih =>
    have hu : displayUnit j s =
        ({ j with left := n, rest := j.rest / j.radix }, s.storeDigit n (cellBitmap s.cfg n (j.rest % j.radix)
          (j.rest / j.radix) j.showLeadingZeros j.decimalPointPosition)) := by
      simp [displayUnit, hn]
    have hcfg : (s.storeDigit n (cellBitmap s.cfg n (j.rest % j.radix) (j.rest / j.radix) j.showLeadingZeros
        j.decimalPointPosition)).cfg = s.cfg := by rw [State.storeDigit_eq]
    obtain ⟨h1, h2, h3⟩ := ih { j with left := n, rest := j.rest / j.radix } (s.storeDigit n (cellBitmap s.cfg n
      (j.rest % j.radix) (j.rest / j.radix) j.showLeadingZeros j.decimalPointPosition)) rfl (by rw [hcfg]; omega)
    rw [displayUnits_succ, hu]
    refine ⟨by rw [h1]; simp [Nat.div_div_eq_div_mul, Nat.pow_succ, Nat.mul_comm], h2, fun p => ?_⟩
    rw [h3 p, hcfg]
    have hdiv : ∀ k, j.rest / j.radix / j.radix ^ k = j.rest / j.radix ^ (k + 1) := fun k => by
      rw [Nat.div_div_eq_div_mul, Nat.pow_succ, Nat.mul_comm]
    by_cases hp : p < n
    · have e1 : n - 1 - p + 1 = n + 1 - 1 - p := by omega
      have e2 : n - p + 1 = n + 1 - p := by omega
      have hne : ¬(p = n) := by omega
      simp only [hp, if_true, Nat.lt_succ_of_lt hp, hdiv, e1, e2, State.cell_storeDigit, hne, false_and, if_false]
    · rw [if_neg hp, State.cell_storeDigit]
      by_cases hpn : p = n
      · subst p
        have hr : s.inRange n := hd
        simp [hr]
      · have : ¬(p < n + 1) := by omega
        simp [hpn, this]

/-- What a `valueToDisplay` that answers a next state did. -/
theorem execValueToDisplay_cases {value radix : Nat} {zeros : Bool} {dpPos : Option Nat} {s t : State}
    (h : execValueToDisplay value radix zeros dpPos s = .next t) :
    2 ≤ radix ∧ t = { s with bm := t.bm, ret := .bool (decide (value < radix ^ s.cfg.digits)) } ∧
    ∀ p, t.cell p =
      if p < s.cfg.digits then
        (cellBitmap s.cfg p (digitOf s.cfg.digits value radix p) (restAbove s.cfg.digits value radix p) zeros dpPos).getD
          (s.cell p)
      else s.cell p := by
  unfold execValueToDisplay at h
  split at h
  · cases h
  · rename_i hr
    have hpos : 0 < radix ^ s.cfg.digits := Nat.pow_pos (by omega)
    obtain ⟨h1, -, h3⟩ := displayUnits_all (displayJob value radix zeros dpPos s) s s.cfg.digits rfl le_rfl
    have h4 := displayUnits_eq s.cfg.digits (displayJob value radix zeros dpPos s) s
    generalize displayUnits s.cfg.digits (displayJob value radix zeros dpPos s) s = r at h h1 h3 h4
    obtain ⟨j, u⟩ := r
    cases h
    refine ⟨by omega, ?_, h3⟩
    simp only at h1 h4
    have hf : fits j.rest = decide (value < radix ^ s.cfg.digits) := by
      have hz : value / radix ^ s.cfg.digits = 0 ↔ value < radix ^ s.cfg.digits := by
        rw [Nat.div_eq_zero_iff]; omega
      rw [h1]
      exact decide_eq_decide.mpr hz
    rw [hf]
    unfold State.returns
    rw [h4]

/-- `valueToDisplay` answers a next state for every radix from 2. -/
theorem execValueToDisplay_next {radix : Nat} (hr : 2 ≤ radix) (value : Nat) (zeros : Bool) (dpPos : Option Nat) (s : State) :
    ∃ t, execValueToDisplay value radix zeros dpPos s = .next t := by
  unfold execValueToDisplay
  rw [if_neg (by omega)]
  exact ⟨_, rfl⟩

end Sys2Proof.Machine
end

