-- ==== Sys2Proof/Laws/Pins.lean ====
section
/-! SUPPORT. What pin events do to the latches (10_state.md R35). -/

namespace Sys2Proof.Machine

variable (s : State)

/-- One event sets its own pin's level or direction and leaves every other pin alone. -/
theorem State.level_emit (e : PinEvent) (x : PinId) :
    (s.emit e).level x = match e with
      | .setDir _ => s.level x
      | .setLevel y l => if x = y then some l else s.level x := by
  cases e with
  | setDir y => rfl
  | setLevel y l => exact getKey_putKey _ _ _ _

theorem State.direction_emit (e : PinEvent) (x : PinId) :
    (s.emit e).direction x = match e with
      | .setDir y => if x = y then some .out else s.direction x
      | .setLevel _ _ => s.direction x := by
  cases e with
  | setDir y => exact getKey_putKey _ _ _ _
  | setLevel y l => rfl

/-- The latches after some events are what those events leave, from the latches before. -/
theorem State.emitAll_lvl (es : List PinEvent) :
    (s.emitAll es).lvl = es.foldl levelsStep s.lvl := by
  induction es generalizing s with
  | nil => rfl
  | cons e es ih => simp only [State.emitAll_cons, ih, List.foldl_cons]; cases e <;> rfl

theorem State.emitAll_dir (es : List PinEvent) :
    (s.emitAll es).dir = es.foldl directionsStep s.dir := by
  induction es generalizing s with
  | nil => rfl
  | cons e es ih => simp only [State.emitAll_cons, ih, List.foldl_cons]; cases e <;> rfl

/-- Latches that are what the trace leaves stay so when events are emitted (R36). -/
theorem State.emitAll_levelsAfter (h : s.lvl = levelsAfter s.trace) (es : List PinEvent) :
    (s.emitAll es).lvl = levelsAfter (s.emitAll es).trace := by
  rw [State.emitAll_lvl, State.emitAll_trace, h, levelsAfter, levelsAfter, List.foldl_append]

theorem State.emitAll_directionsAfter (h : s.dir = directionsAfter s.trace) (es : List PinEvent) :
    (s.emitAll es).dir = directionsAfter (s.emitAll es).trace := by
  rw [State.emitAll_dir, State.emitAll_trace, h, directionsAfter, directionsAfter, List.foldl_append]

/-- A pin none of the events sets keeps its level. -/
theorem State.level_emitAll_of_notMem {es : List PinEvent} {x : PinId}
    (h : ∀ l, PinEvent.setLevel x l ∉ es) : (s.emitAll es).level x = s.level x := by
  induction es generalizing s with
  | nil => rfl
  | cons e es ih =>
    rw [State.emitAll_cons, ih _ fun l hl => h l (List.mem_cons_of_mem _ hl), State.level_emit]
    cases e with
    | setDir y => rfl
    | setLevel y l =>
      simp only
      split
      · subst y; exact absurd List.mem_cons_self (h l)
      · rfl

/-- Events in a row are events one after the other. -/
theorem State.emitAll_append (as bs : List PinEvent) : s.emitAll (as ++ bs) = (s.emitAll as).emitAll bs := by
  simp [State.emitAll, List.foldl_append]

/-- Events change the latches and the trace, nothing else. -/
theorem State.emitAll_eq (es : List PinEvent) :
    s.emitAll es = { s with dir := (s.emitAll es).dir, lvl := (s.emitAll es).lvl, trace := s.trace ++ es } := by
  induction es generalizing s with
  | nil => simp
  | cons e es ih => rw [State.emitAll_cons, ih]; cases e <;> simp [State.emit]

/-! ### The digit lines of a PinMap -/

theorem Level.flip_ne (l : Level) : l.flip ≠ l := by cases l <;> decide
theorem Params.digitOff_ne_digitOn (p : Params) : p.digitOff ≠ p.digitOn := Level.flip_ne _
theorem Params.segmentOff_ne_segmentOn (p : Params) : p.segmentOff ≠ p.segmentOn := Level.flip_ne _

@[simp] theorem Params.digitLevel_true (p : Params) : p.digitLevel true = p.digitOn := rfl
@[simp] theorem Params.digitLevel_false (p : Params) : p.digitLevel false = p.digitOff := rfl
@[simp] theorem Params.segmentLevel_true (p : Params) : p.segmentLevel true = p.segmentOn := rfl
@[simp] theorem Params.segmentLevel_false (p : Params) : p.segmentLevel false = p.segmentOff := rfl

theorem State.mem_energized (i : Nat) :
    i ∈ s.energized ↔ i < s.cfg.digits ∧ ∃ x, s.dpin[i]? = some x ∧ s.level x = some s.cfg.digitOn := by
  unfold State.energized State.linesOn
  rw [List.mem_filter, List.mem_range]
  refine and_congr_right fun _ => ?_
  cases s.dpin[i]? with
  | none => simp
  | some x => simp [State.level]

variable {s}

/-- On a legal PinMap two digit lines on one pin are the same line. -/
theorem PinMapLegal.digit_unique (h : PinMapLegal s.cfg s.dpin s.spin) {i j : Nat} {x : PinId}
    (hi : s.dpin[i]? = some x) (hj : s.dpin[j]? = some x) : i = j := by
  have hlt : i < s.dpin.length := by
    by_contra hge
    rw [List.getElem?_eq_none (Nat.le_of_not_lt hge)] at hi
    cases hi
  exact (List.getElem?_inj hlt (List.nodup_append.mp h.2.2).1).mp (hi.trans hj.symm)

/-- On a legal PinMap no digit line shares its pin with a segment line. -/
theorem PinMapLegal.digit_ne_segment (h : PinMapLegal s.cfg s.dpin s.spin) {i k : Nat} {x : PinId}
    (hi : s.dpin[i]? = some x) (hk : s.spin[k]? = some x) : False :=
  (List.nodup_append.mp h.2.2).2.2 x (List.mem_of_getElem? hi) x (List.mem_of_getElem? hk) rfl

theorem PinMapLegal.digit_exists (h : PinMapLegal s.cfg s.dpin s.spin) {i : Nat} (hi : i < s.cfg.digits) :
    ∃ x, s.dpin[i]? = some x :=
  ⟨s.dpin[i]'(by rw [h.1]; exact hi), by simp⟩

/-- Events on segment pins leave the energized lines as they are. -/
theorem State.mem_energized_emitAll_segments (h : PinMapLegal s.cfg s.dpin s.spin) {es : List PinEvent}
    (hes : ∀ e ∈ es, ∃ (k : Nat) (x : PinId) (l : Level), s.spin[k]? = some x ∧ e = .setLevel x l) (i : Nat) :
    i ∈ (s.emitAll es).energized ↔ i ∈ s.energized := by
  rw [State.mem_energized, State.mem_energized]
  simp only [State.emitAll_cfg, State.emitAll_dpin]
  refine and_congr_right fun _ => exists_congr fun x => and_congr_right fun hx => ?_
  rw [State.level_emitAll_of_notMem]
  intro l hl
  obtain ⟨k, y, l', hk, he⟩ := hes _ hl
  cases he
  exact PinMapLegal.digit_ne_segment h hx hk

/-- Switching a digit line off takes it, and no other, from the energized lines. -/
theorem State.mem_energized_off (h : PinMapLegal s.cfg s.dpin s.spin) {c : Nat} {x : PinId} (hc : s.dpin[c]? = some x)
    (i : Nat) : i ∈ (s.emit (.setLevel x s.cfg.digitOff)).energized ↔ i ∈ s.energized ∧ i ≠ c := by
  rw [State.mem_energized, State.mem_energized]
  simp only [State.emit_cfg, State.emit_dpin, State.level_emit]
  constructor
  · rintro ⟨h1, y, h2, h3⟩
    split at h3
    · exact absurd (Option.some.inj h3) (Params.digitOff_ne_digitOn _)
    · rename_i hne
      refine ⟨⟨h1, y, h2, h3⟩, ?_⟩
      rintro rfl
      rw [hc] at h2
      exact hne (Option.some.inj h2).symm
  · rintro ⟨⟨h1, y, h2, h3⟩, hne⟩
    refine ⟨h1, y, h2, ?_⟩
    rw [if_neg]
    · exact h3
    · rintro rfl
      exact hne (PinMapLegal.digit_unique h h2 hc)

/-- Switching a digit line on adds it, and no other, to the energized lines. -/
theorem State.mem_energized_on (h : PinMapLegal s.cfg s.dpin s.spin) {c : Nat} {x : PinId} (hc : s.dpin[c]? = some x)
    (hlt : c < s.cfg.digits) (i : Nat) :
    i ∈ (s.emit (.setLevel x s.cfg.digitOn)).energized ↔ i ∈ s.energized ∨ i = c := by
  rw [State.mem_energized, State.mem_energized]
  simp only [State.emit_cfg, State.emit_dpin, State.level_emit]
  constructor
  · rintro ⟨h1, y, h2, h3⟩
    split at h3
    · rename_i he
      subst he
      exact .inr (PinMapLegal.digit_unique h h2 hc)
    · exact .inl ⟨h1, y, h2, h3⟩
  · rintro (⟨h1, y, h2, h3⟩ | rfl)
    · refine ⟨h1, y, h2, ?_⟩
      split
      · rfl
      · exact h3
    · exact ⟨hlt, x, hc, by simp⟩

/-- The segment image is the low `S` bits of a byte whose bits the segment lines have. -/
theorem State.segmentImage_eq {b : Byte} (h : PinMapLegal s.cfg s.dpin s.spin)
    (hl : ∀ k x, s.spin[k]? = some x → s.level x = some (s.cfg.segmentLevel (b.getLsbD k))) :
    s.segmentImage = s.cfg.lowSegments b := by
  have lit : ∀ k, k < s.cfg.segments → s.segmentLit k = b.getLsbD k := by
    intro k hk
    have hx : s.spin[k]? = some (s.spin[k]'(by rw [h.2.1]; exact hk)) := by simp
    unfold State.segmentLit
    rw [hx]
    dsimp only
    rw [hl k _ hx]
    cases b.getLsbD k
    · simp [Params.segmentOff_ne_segmentOn]
    · simp
  have hseg : s.cfg.segments = if s.cfg.decimalPoint then 8 else 7 := rfl
  apply BitVec.eq_of_getLsbD_eq
  intro k hk
  unfold State.segmentImage Params.lowSegments
  rw [BitVec.getLsbD_eq_getElem hk, BitVec.getElem_ofFnLE]
  dsimp only
  cases hdp : s.cfg.decimalPoint
  · simp only [hdp, Bool.false_eq_true, if_false] at hseg ⊢
    rw [BitVec.getLsbD_and]
    by_cases h7 : k < 7
    · have low : ∀ k < 7, (0x7F#8).getLsbD k = true := by decide
      rw [lit k (by omega), low k h7]
      simp [hseg, h7]
    · obtain rfl : k = 7 := by omega
      simp [hseg]
  · simp only [hdp, if_true] at hseg ⊢
    rw [lit k (by omega)]
    simp [hseg, hk]

end Sys2Proof.Machine
end

