-- ==== Sys2Proof/Laws/Engine.lean ====
section
/-! SUPPORT. What the engine operations can do (41_multiplex_engine.md): their gates, their pin events, and the transition. -/

namespace Sys2Proof.Machine

variable (s : State)

/-! ### Gates -/

theorem State.engineStop_eq_none : s.engineStop = none ↔ s.ready := by
  unfold State.engineStop State.ready
  cases s.busy <;> cases s.init <;> simp

theorem State.initializeStop_eq_none (dp sp : List PinId) :
    s.initializeStop dp sp = none ↔ s.busy = false ∧ s.init = false ∧ PinMapLegal s.cfg dp sp := by
  unfold State.initializeStop PinMapLegal
  cases s.busy <;> cases s.init <;> simp
  split
  · simp; omega
  · rename_i h
    simp only [not_or, not_not] at h
    simp [h]

/-- What a ready engine operation answers. -/
theorem execAdvanceToDigit_of_ready (h : s.ready) (target : Nat) :
    execAdvanceToDigit target s = .next ((s.moveTo target).returns .done) := by
  rw [execAdvanceToDigit, (State.engineStop_eq_none s).mpr h]

theorem execAdvance_of_ready (h : s.ready) : execAdvance s = .next ((s.moveTo s.advanceTarget).returns .done) := by
  rw [execAdvance, (State.engineStop_eq_none s).mpr h]

theorem execSetBlank_of_ready (h : s.ready) (flag : Bool) :
    execSetBlank flag s = .next ((s.moveTo (if flag then s.blankTarget else 0)).returns .done) := by
  rw [execSetBlank, (State.engineStop_eq_none s).mpr h]

theorem execIsBlank_of_ready (h : s.ready) : execIsBlank s = .next (s.returns (.bool s.isBlank)) := by
  rw [execIsBlank, (State.engineStop_eq_none s).mpr h]

/-- An engine operation that answers a next state was ready, and its next state is the one its rule gives. -/
theorem execAdvanceToDigit_cases {t : State} {target : Nat} (h : execAdvanceToDigit target s = .next t) :
    s.ready ∧ t = (s.moveTo target).returns .done := by
  unfold execAdvanceToDigit at h
  split at h
  · cases h
  · rename_i hs
    exact ⟨(State.engineStop_eq_none s).mp hs, by cases h; rfl⟩

theorem execAdvance_cases {t : State} (h : execAdvance s = .next t) :
    s.ready ∧ t = (s.moveTo s.advanceTarget).returns .done := by
  unfold execAdvance at h
  split at h
  · cases h
  · rename_i hs
    exact ⟨(State.engineStop_eq_none s).mp hs, by cases h; rfl⟩

theorem execSetBlank_cases {t : State} {flag : Bool} (h : execSetBlank flag s = .next t) :
    s.ready ∧ t = (s.moveTo (if flag then s.blankTarget else 0)).returns .done := by
  unfold execSetBlank at h
  split at h
  · cases h
  · rename_i hs
    exact ⟨(State.engineStop_eq_none s).mp hs, by cases h; rfl⟩

theorem execIsBlank_cases {t : State} (h : execIsBlank s = .next t) :
    s.ready ∧ t = s.returns (.bool s.isBlank) := by
  unfold execIsBlank at h
  split at h
  · cases h
  · rename_i hs
    exact ⟨(State.engineStop_eq_none s).mp hs, by cases h; rfl⟩

theorem execInitialize_cases {t : State} {dp sp : List PinId} {b : Bool} (h : execInitialize dp sp b s = .next t) :
    s.busy = false ∧ s.init = false ∧ PinMapLegal s.cfg dp sp ∧
      t = { (s.emitAll (initializeEvents s.cfg dp sp)) with
        dpin := dp, spin := sp, cur := if b then .blanked else .showing 0, init := true, ret := .done } := by
  unfold execInitialize at h
  split at h
  · cases h
  · rename_i hs
    obtain ⟨h1, h2, h3⟩ := (State.initializeStop_eq_none s dp sp).mp hs
    exact ⟨h1, h2, h3, by cases h; rfl⟩

@[simp] theorem State.ready_returns (r : Result) : (s.returns r).ready ↔ s.ready := by simp [State.ready]

/-! ### `initialize` -/

theorem initializeEvents_length {p : Params} {dp sp : List PinId} (h : PinMapLegal p dp sp) :
    (initializeEvents p dp sp).length = 2 * (p.digits + p.segments) := by
  simp [initializeEvents, List.length_flatMap, h.1, h.2.1]
  omega

theorem State.level_emitAll_offs (l : Level) (ps : List PinId) (x : PinId) :
    (s.emitAll (ps.flatMap fun y => [PinEvent.setDir y, PinEvent.setLevel y l])).level x =
      if x ∈ ps then some l else s.level x := by
  induction ps generalizing s with
  | nil => simp
  | cons a ps ih =>
    rw [List.flatMap_cons, State.emitAll_append, ih]
    simp only [State.emitAll_cons, State.emitAll_nil, State.level_emit, List.mem_cons]
    by_cases h : x ∈ ps
    · simp [h]
    · by_cases h' : x = a <;> simp [h, h']

theorem State.direction_emitAll_offs (l : Level) (ps : List PinId) (x : PinId) :
    (s.emitAll (ps.flatMap fun y => [PinEvent.setDir y, PinEvent.setLevel y l])).direction x =
      if x ∈ ps then some .out else s.direction x := by
  induction ps generalizing s with
  | nil => simp
  | cons a ps ih =>
    rw [List.flatMap_cons, State.emitAll_append, ih]
    simp only [State.emitAll_cons, State.emitAll_nil, State.direction_emit, List.mem_cons]
    by_cases h : x ∈ ps
    · simp [h]
    · by_cases h' : x = a <;> simp [h, h']

/-! ### Lines and their events -/

theorem Params.segments_le (p : Params) : p.segments ≤ 8 := by
  unfold Params.segments; split <;> omega

/-- On a legal PinMap the segment writes of a step are one event per segment pin, in list order. -/
theorem State.driveAll_eq (h : s.spin.length = s.cfg.segments) (b : Byte) :
    s.driveAll b = s.spin.mapIdx fun k x => PinEvent.setLevel x (s.cfg.segmentLevel (b.getLsbD k)) := by
  unfold State.driveAll State.drive
  rw [← h]
  generalize s.spin = l
  induction l using List.reverseRecOn with
  | nil => rfl
  | append_singleton l x ih =>
    rw [List.length_append, List.length_singleton, List.range_succ, List.flatMap_append, List.mapIdx_concat, ← ih]
    congr 1
    · refine List.flatMap_congr fun k hk => ?_
      rw [List.getElem?_append_left (List.mem_range.mp hk)]
    · simp

/-- Every event of the segment writes sets a segment pin. -/
theorem State.mem_driveAll {b : Byte} {e : PinEvent} (h : e ∈ s.driveAll b) :
    ∃ k x, k < s.cfg.segments ∧ s.spin[k]? = some x ∧ e = .setLevel x (s.cfg.segmentLevel (b.getLsbD k)) := by
  obtain ⟨k, hk, he⟩ := List.mem_flatMap.mp h
  unfold State.drive at he
  split at he
  · rename_i x hx
    exact ⟨k, x, List.mem_range.mp hk, hx, List.mem_singleton.mp he⟩
  · cases he

theorem State.mem_energize {i : Nat} {e : PinEvent} (h : e ∈ s.energize i) :
    ∃ x, s.dpin[i]? = some x ∧ e = .setLevel x s.cfg.digitOn := by
  unfold State.energize at h
  split at h
  · exact ⟨_, ‹_›, List.mem_singleton.mp h⟩
  · cases h

theorem State.mem_deenergize {i : Nat} {e : PinEvent} (h : e ∈ s.deenergize i) :
    ∃ x, s.dpin[i]? = some x ∧ e = .setLevel x s.cfg.digitOff := by
  unfold State.deenergize at h
  split at h
  · exact ⟨_, ‹_›, List.mem_singleton.mp h⟩
  · cases h

/-- Every event of a transition sets the level of a pin of the PinMap: no transition touches a direction (R116). -/
theorem State.transitionEvents_setsLevelIn {target : Nat} {e : PinEvent} (h : e ∈ s.transitionEvents target) :
    e.setsLevelIn (s.dpin ++ s.spin) = true := by
  have henter : e ∈ s.enterEvents target → e.setsLevelIn (s.dpin ++ s.spin) = true := by
    intro he
    unfold State.enterEvents at he
    split at he
    · obtain ⟨x, hx, rfl⟩ := s.mem_energize he
      simp [PinEvent.setsLevelIn, List.mem_of_getElem? hx]
    · cases he
  unfold State.transitionEvents at h
  split at h
  · exact henter h
  · rcases List.mem_append.mp h with h | h
    · rcases List.mem_append.mp h with h | h
      · unfold State.leaveEvents at h
        split at h
        · obtain ⟨x, hx, rfl⟩ := s.mem_deenergize h
          simp [PinEvent.setsLevelIn, List.mem_of_getElem? hx]
        · cases h
      · obtain ⟨k, x, _, hx, rfl⟩ := s.mem_driveAll h
        simp [PinEvent.setsLevelIn, List.mem_of_getElem? hx]
    · exact henter h

/-! ### The transition -/

@[simp] theorem State.moveTo_cfg (target : Nat) : (s.moveTo target).cfg = s.cfg := by
  simp [State.moveTo]
@[simp] theorem State.moveTo_bm (target : Nat) : (s.moveTo target).bm = s.bm := by
  simp [State.moveTo]
@[simp] theorem State.moveTo_dpin (target : Nat) : (s.moveTo target).dpin = s.dpin := by
  simp [State.moveTo]
@[simp] theorem State.moveTo_spin (target : Nat) : (s.moveTo target).spin = s.spin := by
  simp [State.moveTo]
@[simp] theorem State.moveTo_scratch (target : Nat) : (s.moveTo target).scratch = s.scratch := by
  simp [State.moveTo]
@[simp] theorem State.moveTo_init (target : Nat) : (s.moveTo target).init = s.init := by
  simp [State.moveTo]
@[simp] theorem State.moveTo_busy (target : Nat) : (s.moveTo target).busy = s.busy := by
  simp [State.moveTo]
@[simp] theorem State.moveTo_ret (target : Nat) : (s.moveTo target).ret = s.ret := by
  simp [State.moveTo]
@[simp] theorem State.moveTo_draws (target : Nat) : (s.moveTo target).draws = s.draws := by
  simp [State.moveTo]
@[simp] theorem State.moveTo_main (target : Nat) : (s.moveTo target).main = s.main := by
  simp [State.moveTo]
@[simp] theorem State.moveTo_tick (target : Nat) : (s.moveTo target).tick = s.tick := by
  simp [State.moveTo]
@[simp] theorem State.moveTo_turns (target : Nat) : (s.moveTo target).turns = s.turns := by
  simp [State.moveTo]
@[simp] theorem State.moveTo_cur (target : Nat) : (s.moveTo target).cur = s.targetState target := rfl
@[simp] theorem State.moveTo_trace (target : Nat) :
    (s.moveTo target).trace = s.trace ++ s.transitionEvents target := by simp [State.moveTo]

/-- Events that only set levels leave every direction alone. -/
theorem State.emitAll_dir_of_levels {pins : List PinId} {es : List PinEvent} (h : ∀ e ∈ es, e.setsLevelIn pins = true) :
    (s.emitAll es).dir = s.dir := by
  induction es generalizing s with
  | nil => rfl
  | cons e es ih =>
    rw [State.emitAll_cons, ih _ fun e' he' => h e' (List.mem_cons_of_mem _ he')]
    cases e with
    | setDir x => exact absurd (h _ List.mem_cons_self) (by simp [PinEvent.setsLevelIn])
    | setLevel x l => rfl

@[simp] theorem State.moveTo_dir (target : Nat) : (s.moveTo target).dir = s.dir :=
  State.emitAll_dir_of_levels s (pins := s.dpin ++ s.spin) fun _ he => s.transitionEvents_setsLevelIn he

@[simp] theorem State.ready_moveTo (target : Nat) : (s.moveTo target).ready ↔ s.ready := by simp [State.ready]

/-- A transition changes `CUR`, the levels and the trace, nothing else. -/
theorem State.moveTo_returns_eq (target : Nat) (r : Result) :
    (s.moveTo target).returns r =
      { s with cur := s.targetState target, lvl := (s.moveTo target).lvl,
               trace := s.trace ++ s.transitionEvents target, ret := r } := by
  have h : s.moveTo target =
      { s with cur := s.targetState target, dir := (s.moveTo target).dir, lvl := (s.moveTo target).lvl,
               trace := s.trace ++ s.transitionEvents target } := by
    unfold State.moveTo State.setCur
    rw [State.emitAll_eq]
  rw [State.moveTo_dir] at h
  conv_lhs => rw [h]
  rfl

/-- The target state is legal whatever the target is (R24). -/
theorem State.targetState_legal (target : Nat) : (s.targetState target).legal s.cfg.digits = true := by
  unfold State.targetState
  split
  · simpa [Cur.legal]
  · rfl

@[simp] theorem State.targetState_blankTarget : s.targetState s.blankTarget = .blanked := by
  simp [State.targetState, State.blankTarget, State.inRange]

theorem State.targetState_of_lt {target : Nat} (h : target < s.cfg.digits) : s.targetState target = .showing target := by
  simp [State.targetState, State.inRange, h]

theorem State.targetState_of_le {target : Nat} (h : s.cfg.digits ≤ target) : s.targetState target = .blanked := by
  simp [State.targetState, State.inRange, h]

/-- Every target out of range does the same (R25). -/
theorem State.moveTo_of_le {target : Nat} (h : s.cfg.digits ≤ target) : s.moveTo target = s.moveTo s.blankTarget := by
  have hb : ¬s.inRange target := Nat.not_lt.mpr h
  have hb' : ¬s.inRange s.blankTarget := Nat.lt_irrefl _
  simp [State.moveTo, State.transitionEvents, State.targetState, State.enterEvents, State.sample, hb, hb']

/-- Blanked to blank changes nothing (R119). -/
theorem State.moveTo_blankTarget_of_blanked (h : s.cur = .blanked) : s.moveTo s.blankTarget = s := by
  have hb : ¬s.inRange s.blankTarget := Nat.lt_irrefl _
  have ht : s.transitionEvents s.blankTarget = [] := by
    simp [State.transitionEvents, h, State.enterEvents, hb]
  rw [State.moveTo, ht, State.emitAll_nil, State.targetState_blankTarget, State.setCur, ← h]

/-- After segment writes each segment line has the level of its bit. -/
theorem State.level_driveAll {s : State} (h : PinMapLegal s.cfg s.dpin s.spin) (u : State) (b : Byte) {k : Nat} {x : PinId}
    (hk : s.spin[k]? = some x) : (u.emitAll (s.driveAll b)).level x = some (s.cfg.segmentLevel (b.getLsbD k)) := by
  have key : ∀ (l : List PinId) (u : State) (f : Nat → Level) (k : Nat), l.Nodup → l[k]? = some x →
      (u.emitAll (l.mapIdx fun k y => PinEvent.setLevel y (f k))).level x = some (f k) := by
    intro l
    induction l with
    | nil => intro u f k _ h; simp at h
    | cons a l ih =>
      intro u f k hn hk
      rw [List.mapIdx_cons, State.emitAll_cons]
      cases k with
      | zero =>
        obtain rfl : a = x := by simpa using hk
        rw [State.level_emitAll_of_notMem, State.level_emit]
        · simp
        · intro l' hl'
          obtain ⟨i, hi, he⟩ := List.mem_mapIdx.mp hl'
          cases he
          exact (List.nodup_cons.mp hn).1 (List.getElem_mem hi)
      | succ k => exact ih _ (fun k => f (k + 1)) k (List.nodup_cons.mp hn).2 (by simpa using hk)
  rw [State.driveAll_eq s h.2.1]
  exact key s.spin u (fun k => s.cfg.segmentLevel (b.getLsbD k)) k (List.nodup_append.mp h.2.2).2.1 hk

end Sys2Proof.Machine
end

