-- ==== Sys2Proof/Laws/PerInstr.lean ====
section
/-! SUPPORT. Facts about every operation as syntax, one lemma per constructor. -/

namespace Sys2Proof.Laws.OrdinalByte

/-- The record of an operation begins with its ordinal (30_encoding.md R87), which is below 11 and fits bits [3:0]. -/
def Statement (i : Instr) : Prop :=
  (encode i).head? = some (BitVec.ofNat 8 i.ordinal) ∧ i.ordinal < 11

theorem read (pos : Nat) : Statement (.read pos) := ⟨rfl, by simp [Instr.ordinal]⟩
theorem write (pos : Nat) (bitmap : Byte) : Statement (.write pos bitmap) := ⟨rfl, by simp [Instr.ordinal]⟩
theorem daRead (pos : Nat) : Statement (.daRead pos) := ⟨rfl, by simp [Instr.ordinal]⟩
theorem daWrite (pos : Nat) (bitmap : Byte) : Statement (.daWrite pos bitmap) := ⟨rfl, by simp [Instr.ordinal]⟩
theorem initializeEngine (dp sp : List PinId) (startBlanked : Bool) :
    Statement (.initializeEngine dp sp startBlanked) := ⟨rfl, by simp [Instr.ordinal]⟩
theorem advanceToDigit (target : Nat) : Statement (.advanceToDigit target) := ⟨rfl, by simp [Instr.ordinal]⟩
theorem advance : Statement .advance := ⟨rfl, by simp [Instr.ordinal]⟩
theorem setBlank (flag : Bool) : Statement (.setBlank flag) := ⟨rfl, by simp [Instr.ordinal]⟩
theorem isBlank : Statement .isBlank := ⟨rfl, by simp [Instr.ordinal]⟩
theorem digitToBitmap (value : Nat) (point : Bool) : Statement (.digitToBitmap value point) := ⟨rfl, by simp [Instr.ordinal]⟩
theorem valueToDisplay (value radix : Nat) (zeros : Bool) (dpPos : Option Nat) :
    Statement (.valueToDisplay value radix zeros dpPos) := ⟨rfl, by simp [Instr.ordinal]⟩

end Sys2Proof.Laws.OrdinalByte
end

