-- ==== Sys2Proof/Laws/Schedule.lean ====
section
/-! SUPPORT. What a step can do (20_memory.md R62, R63): the cases of a turn. -/

namespace Sys2Proof.Machine

/-- A turn that answers a next state went on with a `valueToDisplay`, finished an engine operation, found nothing to do, or made the
context's next call. -/
theorem takeTurn_cases {tn : Turn} {s t : State} (h : takeTurn tn s = .next t) :
    (∃ j, (s.context tn.agent).flight = some (.display j) ∧ t = runDisplay tn.agent tn.grain j s) ∨
    (∃ i, (s.context tn.agent).flight = some (.engine i) ∧
      exec i { (s.setFlight tn.agent none) with busy := false } = .next t) ∨
    ((s.context tn.agent).flight = none ∧ (s.context tn.agent).calls = [] ∧ t = s) ∨
    ∃ record calls i, (s.context tn.agent).flight = none ∧ (s.context tn.agent).calls = record :: calls ∧
      decodeRecord record = .ok i ∧
      ((tn.grain = .whole ∧ exec i (s.popCall tn.agent calls) = .next t) ∨
        (tn.grain = .unit ∧ beginCall tn.agent i (s.popCall tn.agent calls) = .next t)) := by
  unfold takeTurn at h
  split at h
  · rename_i j hf
    exact .inl ⟨j, hf, by cases h; rfl⟩
  · rename_i i hf
    exact .inr (.inl ⟨i, hf, h⟩)
  · rename_i hf
    split at h
    · rename_i hc
      exact .inr (.inr (.inl ⟨hf, hc, by cases h; rfl⟩))
    · rename_i record calls hc
      split at h
      · cases h
      · rename_i i hd
        refine .inr (.inr (.inr ⟨record, calls, i, hf, hc, hd, ?_⟩))
        split at h
        · rename_i hg
          exact .inl ⟨hg, h⟩
        · rename_i hg
          exact .inr ⟨hg, h⟩

/-- An operation that its gate refuses is refused, for that reason. -/
theorem exec_of_startStop {i : Instr} {s : State} {r : Refusal} (h : s.startStop i = some r) : exec i s = .refused r := by
  cases i with
  | read _ => cases h
  | write _ _ => cases h
  | daRead _ => cases h
  | daWrite _ _ => cases h
  | initializeEngine _ _ _ => simp only [exec, execInitialize, show s.initializeStop _ _ = some r from h]
  | advanceToDigit _ => simp only [exec, execAdvanceToDigit, show s.engineStop = some r from h]
  | advance => simp only [exec, execAdvance, show s.engineStop = some r from h]
  | setBlank _ => simp only [exec, execSetBlank, show s.engineStop = some r from h]
  | isBlank => simp only [exec, execIsBlank, show s.engineStop = some r from h]
  | digitToBitmap _ _ => cases h
  | valueToDisplay _ _ _ _ => cases h

/-- An engine operation that its gate lets through completes. -/
theorem exec_next_of_startStop {i : Instr} {s : State} (hc : i.isContent = false) (h : s.startStop i = none) :
    ∃ t, exec i s = .next t := by
  cases i with
  | read _ => cases hc
  | write _ _ => cases hc
  | daRead _ => cases hc
  | daWrite _ _ => cases hc
  | initializeEngine _ _ _ => simp only [exec, execInitialize, show s.initializeStop _ _ = none from h]; exact ⟨_, rfl⟩
  | advanceToDigit _ => simp only [exec, execAdvanceToDigit, show s.engineStop = none from h]; exact ⟨_, rfl⟩
  | advance => simp only [exec, execAdvance, show s.engineStop = none from h]; exact ⟨_, rfl⟩
  | setBlank _ => simp only [exec, execSetBlank, show s.engineStop = none from h]; exact ⟨_, rfl⟩
  | isBlank => simp only [exec, execIsBlank, show s.engineStop = none from h]; exact ⟨_, rfl⟩
  | digitToBitmap _ _ => cases hc
  | valueToDisplay _ _ _ _ => cases hc

/-- The gate looks at the parameters, `INIT` and `BUSY` only. -/
theorem State.startStop_congr {s t : State} (hc : t.cfg = s.cfg) (hi : t.init = s.init) (hb : t.busy = s.busy) (i : Instr) :
    t.startStop i = s.startStop i := by
  cases i <;> simp only [State.startStop, State.engineStop, State.initializeStop, hc, hi, hb]

/-- Whether what a context has in flight is admitted depends on the parameters and `INIT` only. -/
theorem State.flightAdmitted_congr {s t : State} (hc : t.cfg = s.cfg) (hi : t.init = s.init) (c : Context) :
    t.flightAdmitted c = s.flightAdmitted c := by
  unfold State.flightAdmitted
  cases c.flight with
  | none => rfl
  | some f =>
    cases f with
    | display j => rfl
    | engine i =>
      simp only [State.startStop_congr (s := { s with busy := false }) (t := { t with busy := false }) hc hi rfl i]

/-- A context with no engine operation in flight has nothing to admit. -/
theorem State.flightAdmitted_of_noEngine {s : State} {c : Context} (h : c.engineInFlight = false) :
    s.flightAdmitted c = true := by
  unfold State.flightAdmitted
  cases hf : c.flight with
  | none => rfl
  | some f =>
    cases f with
    | display j => rfl
    | engine i => simp [Context.engineInFlight, hf] at h

/-- A gate that lets an operation through finds no engine operation in flight. -/
theorem State.busy_of_startStop {s : State} {i : Instr} (hc : i.isContent = false) (h : s.startStop i = none) : s.busy = false := by
  cases hb : s.busy with
  | false => rfl
  | true => cases i <;> simp [Instr.isContent, State.startStop, State.engineStop, State.initializeStop, hb] at hc h

/-- A call's first unit that answers a next state is the whole operation, the start of an engine operation, or the first write of a
`valueToDisplay`. -/
theorem beginCall_cases {a : Agent} {i : Instr} {s t : State} (h : beginCall a i s = .next t) :
    exec i s = .next t ∨
    (i.holdsBusy = true ∧ s.startStop i = none ∧ t = { (s.setFlight a (some (.engine i))) with busy := true }) ∨
    ∃ value radix zeros dpPos, i = .valueToDisplay value radix zeros dpPos ∧ 2 ≤ radix ∧
      t = runDisplay a .unit (displayJob value radix zeros dpPos s) s := by
  have engine : ∀ i, beginEngine a i s = .next t →
      s.startStop i = none ∧ t = { (s.setFlight a (some (.engine i))) with busy := true } := by
    intro i h
    unfold beginEngine at h
    split at h
    · cases h
    · exact ⟨‹_›, by cases h; rfl⟩
  cases i with
  | read _ => exact .inl h
  | write _ _ => exact .inl h
  | daRead _ => exact .inl h
  | daWrite _ _ => exact .inl h
  | initializeEngine _ _ _ => exact .inr (.inl ⟨rfl, engine _ h⟩)
  | advanceToDigit _ => exact .inr (.inl ⟨rfl, engine _ h⟩)
  | advance => exact .inr (.inl ⟨rfl, engine _ h⟩)
  | setBlank _ => exact .inr (.inl ⟨rfl, engine _ h⟩)
  | isBlank => exact .inl h
  | digitToBitmap _ _ => exact .inl h
  | valueToDisplay value radix zeros dpPos =>
    simp only [beginCall] at h
    split at h
    · cases h
    · exact .inr (.inr ⟨value, radix, zeros, dpPos, rfl, by omega, by cases h; rfl⟩)

/-- A run goes on from the state its first step gives. -/
theorem run_succ_of_step (M : Host.Core) {s t : M.State} (h : M.step s = .next t) (k : Nat) : M.run (k + 1) s = M.run k t := by
  simp only [Host.Core.run, h]

theorem run_of_step {s t : State} (h : step s = .next t) (k : Nat) : Sys2Proof.core.run (k + 1) s = Sys2Proof.core.run k t :=
  run_succ_of_step Sys2Proof.core h k

/-- Going on with a `valueToDisplay` changes bitmaps, the result and the context's call in flight, nothing else. -/
theorem runDisplay_eq (a : Agent) (g : Grain) (j : DisplayJob) (s : State) :
    runDisplay a g j s =
      { s with bm := (runDisplay a g j s).bm, ret := (runDisplay a g j s).ret, main := (runDisplay a g j s).main,
               tick := (runDisplay a g j s).tick } := by
  unfold runDisplay
  have he := displayUnits_eq (unitsOf g j.left) j s
  generalize displayUnits (unitsOf g j.left) j s = r at he
  obtain ⟨j', t⟩ := r
  dsimp only at he ⊢
  generalize t.bm = m at he
  subst he
  split <;> cases a <;> rfl

end Sys2Proof.Machine
end

