-- ==== Sys2Proof/Tests/Slice0.lean ====
section
/-! SUPPORT. Tests on fixed values, their expected results taken from spec/ (95_test_vectors.md unless another place is named), and for
each obligation with hypotheses a concrete state and operands that meet them. -/

namespace Sys2Proof.Tests

open Sys2Proof.Machine

/-! ### Helpers -/

/-- The next state of an outcome. -/
def next? : Host.Outcome State Fault Refusal → Option State
  | .next t => some t
  | .fault _ => none
  | .refused _ => none

/-- The reason of a refusal. -/
def refusal? : Host.Outcome State Fault Refusal → Option Refusal
  | .next _ => none
  | .fault _ => none
  | .refused r => some r

/-- The state after some operations in a row, from a state in which all of them complete. -/
def after : List Instr → State → State
  | [], s => s
  | i :: is, s => after is ((next? (exec i s)).getD s)

/-- The events an operation emits and `CUR` after it. -/
def emits (i : Instr) (s : State) : Option (List PinEvent × Cur) :=
  (next? (exec i s)).map fun t => (t.trace.drop s.trace.length, t.cur)

/-- The cells and the result an operation leaves. -/
def leaves (i : Instr) (s : State) : Option (List Byte × Result) :=
  (next? (exec i s)).map fun t => ((List.range t.cfg.digits).map t.cell, t.ret)

/-- `L(p, l)` of the vectors. -/
def L (p : PinId) (l : Level) : PinEvent := .setLevel p l

/-- Configuration A with the bitmaps "1234", constructed and not initialised. -/
def fresh : State := after [.valueToDisplay 1234 10 false none] State.reset

/-- Step A1 of program A, on the pins of configuration A. -/
def bringUp (startBlanked : Bool) : Instr := .initializeEngine [10, 11, 12, 13] [2, 3, 4, 5, 6, 7, 8, 9] startBlanked

/-- Configuration A initialised in `Showing(0)`, initialised in Blanked, and with digit 1 on. -/
def start : State := after [bringUp false] fresh
def dark : State := after [bringUp true] fresh
def live : State := after [bringUp false, .advance] fresh

/-- The same machine with `CUR` and the four cells as given. -/
def at_ (c : Cur) : State := { start with cur := c }

/-- Every cell of configuration A with the marker of section 2.4. -/
def marked : State := after [.write 0 0xEE#8, .write 1 0xEE#8, .write 2 0xEE#8, .write 3 0xEE#8] State.reset

/-- Configuration B2: two digits, no decimal point, inverted polarities. -/
def b2 : State :=
  after [.initializeEngine [4, 5] [6, 7, 8, 9, 10, 11, 12] false, .write 0 0xFF#8, .write 1 0x80#8]
    (State.powerOn { digits := 2, decimalPoint := false, digitOn := .high, segmentOn := .low, glyphs := defaultGlyphs })

/-- Program B's display of one digit, after its steps B1 and B2. -/
def single : State :=
  after [.initializeEngine [4] [5, 6, 7, 8, 9, 10, 11] false, .write 0 0x07#8]
    (State.powerOn { digits := 1, decimalPoint := false, digitOn := .high, segmentOn := .low, glyphs := defaultGlyphs })

/-- A state whose main flow has these records to make and whose schedule is this. -/
def withCalls (s : State) (main tick : List (List Byte)) (turns : List Turn) : State :=
  { s with main := { calls := main, flight := none }, tick := { calls := tick, flight := none }, turns := turns }

/-! ### WellFormed: one ill-formed operation for each check -/

theorem test_wellFormed_read_position :
    (Instr.read 4).problem configurationA = some .readPosition ∧ (Instr.read 3).wellFormed configurationA = true := by decide
theorem test_wellFormed_pin_list_length :
    (Instr.initializeEngine [10, 11, 12] [2, 3, 4, 5, 6, 7, 8, 9] false).problem configurationA = some .pinListLength ∧
    (Instr.initializeEngine [10, 11, 12, 13] [2, 3, 4, 5, 6, 7, 8] false).wellFormed configurationA = false := by decide
theorem test_wellFormed_repeated_pin :
    (Instr.initializeEngine [10, 11, 12, 2] [2, 3, 4, 5, 6, 7, 8, 9] false).problem configurationA = some .repeatedPin ∧
    (bringUp false).wellFormed configurationA = true := by decide
theorem test_wellFormed_radix :
    (Instr.valueToDisplay 7 1 false none).problem configurationA = some .radixBelowTwo ∧
    (Instr.valueToDisplay 7 2 false none).wellFormed configurationA = true := by decide

/-! ### Decoding: records written out byte by byte (ordinals: 30_encoding.md R87; operand bytes: log 1) -/

theorem test_decode_read : decodeRecord [0x00#8, 0x03#8] = .ok (.read 3) := by rfl
theorem test_decode_write : decodeRecord [0x01#8, 0xC0#8, 0x84#8, 0x3D#8, 0xAA#8] = .ok (.write 1000000 0xAA#8) := by rfl
theorem test_decode_daRead : decodeRecord [0x02#8, 0x04#8] = .ok (.daRead 4) := by rfl
theorem test_decode_daWrite : decodeRecord [0x03#8, 0x00#8, 0x80#8] = .ok (.daWrite 0 0x80#8) := by rfl
theorem test_decode_initialize :
    decodeRecord [0x04#8, 0x02#8, 0x14#8, 0x15#8, 0x08#8, 0x00#8, 0x01#8, 0x02#8, 0x03#8, 0x04#8, 0x05#8, 0x06#8, 0x07#8, 0x01#8] =
      .ok (.initializeEngine [20, 21] [0, 1, 2, 3, 4, 5, 6, 7] true) := by rfl
theorem test_decode_advanceToDigit : decodeRecord [0x05#8, 0x02#8] = .ok (.advanceToDigit 2) := by rfl
theorem test_decode_advance : decodeRecord [0x06#8] = .ok .advance := by rfl
theorem test_decode_setBlank : decodeRecord [0x07#8, 0x01#8] = .ok (.setBlank true) := by rfl
theorem test_decode_isBlank : decodeRecord [0x08#8] = .ok .isBlank := by rfl
theorem test_decode_digitToBitmap : decodeRecord [0x09#8, 0x0F#8, 0x00#8] = .ok (.digitToBitmap 15 false) := by rfl
theorem test_decode_valueToDisplay :
    decodeRecord [0x0A#8, 0x2A#8, 0x10#8, 0x00#8, 0x01#8, 0x00#8] = .ok (.valueToDisplay 42 16 false (some 0)) ∧
    decodeRecord [0x0A#8, 0xD2#8, 0x09#8, 0x0A#8, 0x00#8, 0x00#8] = .ok (.valueToDisplay 1234 10 false none) := ⟨rfl, rfl⟩
theorem test_decode_rejects :
    decodeRecord [0x0B#8] = .error (.reservedOrdinal 11) ∧ decodeRecord [0x16#8] = .error .reservedBits ∧
    decodeRecord [0x05#8] = .error .truncated ∧ decodeRecord [0x06#8, 0x00#8] = .error .trailingBytes ∧
    decodeRecord [0x05#8, 0x82#8, 0x00#8] = .error .overlongNatural ∧ decodeRecord [0x07#8, 0x02#8] = .error .badBoolean :=
  ⟨rfl, rfl, rfl, rfl, rfl, rfl⟩

/-! ### DisplayState: M1 to M13 -/

theorem test_read_M1_M3 :
    leaves (.read 0) State.reset = some ([0x00#8, 0x00#8, 0x00#8, 0x00#8], .byte 0x00#8) ∧
    leaves (.read 3) (after [.write 3 0xFF#8] State.reset) = some ([0x00#8, 0x00#8, 0x00#8, 0xFF#8], .byte 0xFF#8) := by decide
theorem test_read_M6 : refusal? (exec (.read 4) State.reset) = some .readOutOfRange := by decide
theorem test_write_M2_M4 :
    leaves (.write 3 0xFF#8) State.reset = some ([0x00#8, 0x00#8, 0x00#8, 0xFF#8], .done) ∧
    next? (exec (.write 4 0xAA#8) State.reset) = some State.reset := by decide
theorem test_write_M12 : (after [.write 2 0x5B#8, .write 2 0x5B#8] State.reset).bm = [(2, 0x5B#8)] := by decide
theorem test_daRead_M8 :
    leaves (.daRead 0) (after [.daWrite 0 0x80#8] State.reset) = some ([0x80#8, 0x00#8, 0x00#8, 0x00#8], .byte 0x80#8) := by decide
theorem test_daRead_M10 :
    (next? (exec (.daRead 4) State.reset)).map (fun t => (t.bm, t.scratch, t.cur)) = some ([], 0x00#8, .showing 0) := by decide
theorem test_daWrite_M7 : leaves (.daWrite 0 0x80#8) State.reset = some ([0x80#8, 0x00#8, 0x00#8, 0x00#8], .done) := by decide
theorem test_daWrite_M9 : next? (exec (.daWrite 4 0x55#8) State.reset) = some { State.reset with scratch := 0x55#8 } := by decide

/-! ### MultiplexEngine: T1 to T17, A1, E2 to E6 -/

theorem test_initialize_A1 : emits (bringUp false) State.reset = some
    ([.setDir 10, L 10 .high, .setDir 11, L 11 .high, .setDir 12, L 12 .high, .setDir 13, L 13 .high,
      .setDir 2, L 2 .low, .setDir 3, L 3 .low, .setDir 4, L 4 .low, .setDir 5, L 5 .low,
      .setDir 6, L 6 .low, .setDir 7, L 7 .low, .setDir 8, L 8 .low, .setDir 9, L 9 .low], .showing 0) := by decide
theorem test_initialize_E3_E4_E6 :
    refusal? (exec (.initializeEngine [10, 11, 12] [2, 3, 4, 5, 6, 7, 8, 9] false) State.reset) = some .badPinList ∧
    refusal? (exec (.initializeEngine [10, 11, 12, 2] [2, 3, 4, 5, 6, 7, 8, 9] false) State.reset) = some .duplicatePin ∧
    refusal? (exec (bringUp true) start) = some .alreadyInitialized := by decide
theorem test_advanceToDigit_T2_T3 :
    emits (.advanceToDigit 0) (at_ .blanked) = some
      ([L 2 .low, L 3 .high, L 4 .high, L 5 .low, L 6 .low, L 7 .low, L 8 .low, L 9 .low, L 10 .low], .showing 0) ∧
    emits (.advanceToDigit 1) (at_ (.showing 0)) = some
      ([L 10 .high, L 2 .high, L 3 .high, L 4 .low, L 5 .high, L 6 .high, L 7 .low, L 8 .high, L 9 .low, L 11 .low], .showing 1) := by
  decide
theorem test_advanceToDigit_T1_T4_T10 :
    emits (.advanceToDigit 4) (at_ .blanked) = some ([], .blanked) ∧
    emits (.advanceToDigit 0) (at_ (.showing 0)) = some ([L 10 .low], .showing 0) ∧
    emits (.advanceToDigit 7) (at_ (.showing 2)) = some
      ([L 12 .high, L 2 .low, L 3 .low, L 4 .low, L 5 .low, L 6 .low, L 7 .low, L 8 .low, L 9 .low], .blanked) := by decide
theorem test_advance_T8_T9_T15 :
    emits .advance (at_ .blanked) = some ([], .blanked) ∧
    emits .advance (at_ (.showing 3)) = some
      ([L 13 .high, L 2 .low, L 3 .high, L 4 .high, L 5 .low, L 6 .low, L 7 .low, L 8 .low, L 9 .low, L 10 .low], .showing 0) ∧
    refusal? (exec .advance State.reset) = some .notInitialized := by decide
theorem test_advance_T16 : emits .advance b2 = some
    ([L 4 .low, L 6 .high, L 7 .high, L 8 .high, L 9 .high, L 10 .high, L 11 .high, L 12 .high, L 5 .high], .showing 1) := by decide
theorem test_setBlank_T6_T7 :
    emits (.setBlank true) (at_ (.showing 1)) = some
      ([L 11 .high, L 2 .low, L 3 .low, L 4 .low, L 5 .low, L 6 .low, L 7 .low, L 8 .low, L 9 .low], .blanked) ∧
    emits (.setBlank true) (at_ .blanked) = some ([], .blanked) := by decide
theorem test_setBlank_T11_T12 :
    emits (.setBlank false) (at_ (.showing 2)) = some
      ([L 12 .high, L 2 .low, L 3 .high, L 4 .high, L 5 .low, L 6 .low, L 7 .low, L 8 .low, L 9 .low, L 10 .low], .showing 0) ∧
    emits (.setBlank false) (at_ (.showing 0)) = some ([L 10 .low], .showing 0) := by decide
theorem test_isBlank_T13_T14 :
    next? (exec .isBlank (at_ (.showing 1))) = some { at_ (.showing 1) with ret := .bool false } ∧
    next? (exec .isBlank (at_ .blanked)) = some { at_ .blanked with ret := .bool true } := by decide

/-- A3 of program A: the views after a tick. -/
theorem test_views_A3 : live.energized = [1] ∧ live.segmentImage = 0x5B#8 := by decide

/-! ### Encoder: section 2.3, V1 to V28 -/

theorem test_digitToBitmap_points :
    next? (exec (.digitToBitmap 8 true) State.reset) = some { State.reset with ret := .byte 0xFF#8 } ∧
    next? (exec (.digitToBitmap 10 false) State.reset) = some { State.reset with ret := .byte 0x77#8 } := by decide
theorem test_digitToBitmap_16 : next? (exec (.digitToBitmap 16 false) State.reset) = some { State.reset with ret := .fail } := by decide
theorem test_valueToDisplay_V8_V19 :
    leaves (.valueToDisplay 5 10 false (some 1)) marked = some ([0x00#8, 0xBF#8, 0x3F#8, 0x6D#8], .bool true) ∧
    leaves (.valueToDisplay 10005 10 false none) marked = some ([0x3F#8, 0x3F#8, 0x3F#8, 0x6D#8], .bool false) := by decide
theorem test_valueToDisplay_V4_V21_V22 :
    leaves (.valueToDisplay 0 10 false none) marked = some ([0x00#8, 0x00#8, 0x00#8, 0x3F#8], .bool true) ∧
    leaves (.valueToDisplay 71 36 false none) marked = some ([0x00#8, 0x00#8, 0x06#8, 0xEE#8], .bool true) ∧
    refusal? (exec (.valueToDisplay 7 1 false none) marked) = some .badRadix := by decide

/-! ### Steps -/

/-- What the host places is what the next step runs. -/
theorem test_step_runs_the_fetch_word :
    next? (step (State.reset.withFetchWord 8 0)) = next? (exec (.read 0) State.reset) ∧
    refusal? (step (State.reset.withFetchWord 8 6)) = some .notInitialized := by decide

/-- R165, R168: a unit turn starts nothing that is refused, be it a tick before `initialize` or the bad pin list of E3. -/
theorem test_step_unit_turn_refuses :
    refusal? (step (withCalls State.reset [] [[0x06#8]] [{ agent := .tick, grain := .unit }])) = some .notInitialized ∧
    refusal? (step (withCalls State.reset [encode (.initializeEngine [10, 11, 12] [2, 3, 4, 5, 6, 7, 8, 9] false)] []
      [{ agent := .main, grain := .unit }])) = some .badPinList := by decide

/-- Program D, a torn frame: the first write of `valueToDisplay(10, 10, false)`, a tick, and the cells after it. -/
theorem test_step_program_D :
    ((next? (Sys2Proof.core.run 2 (withCalls b2 [[0x0A#8, 0x0A#8, 0x0A#8, 0x00#8, 0x00#8]] [[0x06#8]]
      [{ agent := .main, grain := .unit }, { agent := .tick, grain := .whole }]))).map
        fun t : State => ((List.range 2).map t.cell, t.cur)) = some ([0xFF#8, 0x3F#8], .showing 1) := by decide

/-! ### Witnesses: states and operands that meet the hypotheses of the obligations, clause by clause at boundary values -/

/-- Calls in one letter each: a tick's, `read(3)`, `valueToDisplay(7, 10, false)` and a record that is no call. -/
def tickCall : List Byte := [0x06#8]
def readCall : List Byte := [0x00#8, 0x03#8]
def displayCall : List Byte := [0x0A#8, 0x07#8, 0x0A#8, 0x00#8, 0x00#8]
def mainWhole : Turn := { agent := .main, grain := .whole }
def mainUnit : Turn := { agent := .main, grain := .unit }
def tickWhole : Turn := { agent := .tick, grain := .whole }

/-- An initialised instance with an engine operation of the main flow in flight, and a tick to come. -/
def reentrant : State :=
  { live with
    main := { calls := [], flight := some (.engine (.setBlank true)) }
    tick := { calls := [tickCall], flight := none }
    busy := true
    turns := [tickWhole] }

theorem live_consistent : Consistent live := by constructor <;> decide
theorem live_safe : DigitLinesSafe live := by constructor <;> decide
theorem dark_consistent : Consistent dark := by constructor <;> decide
theorem dark_safe : DigitLinesSafe dark := by constructor <;> decide
theorem single_consistent : Consistent single := by constructor <;> decide
theorem single_safe : DigitLinesSafe single := by constructor <;> decide
theorem reentrant_consistent : Consistent reentrant := by constructor <;> decide

theorem witness_construction :
    (1 ≤ configurationA.digits ∧ ∀ m, some 4 = some m → configurationA.digits ≤ m) ∧
    ({ configurationA with digits := 0 } : Params).digits = 0 ∧ (∃ m, some 3 = some m ∧ m < configurationA.digits) :=
  ⟨⟨by decide, fun m h => by cases h; decide⟩, rfl, 3, rfl, by decide⟩
theorem witness_constructed_invariants : configurationA.admissible = true := by decide
theorem witness_step_consistent :
    ∃ t, Consistent (withCalls live [displayCall] [tickCall] [tickWhole]) ∧
      step (withCalls live [displayCall] [tickCall] [tickWhole]) = .next t :=
  ⟨_, by constructor <;> decide, rfl⟩
theorem witness_step_consistent_in_flight :
    ∃ t, Consistent { reentrant with turns := [mainUnit] } ∧ step { reentrant with turns := [mainUnit] } = .next t :=
  ⟨_, by constructor <;> decide, rfl⟩
theorem witness_step_safe :
    ∃ t, Consistent (withCalls live [] [tickCall] []) ∧ DigitLinesSafe (withCalls live [] [tickCall] []) ∧
      step (withCalls live [] [tickCall] []) = .next t :=
  ⟨_, by constructor <;> decide, by constructor <;> decide, rfl⟩

/-- A scheduled turn of each context, the default turn of the main flow, and that of the tick context. -/
theorem witness_step_runs_call :
    (let s := withCalls live [readCall] [tickCall] [mainWhole];
      (s.context .main).flight = none ∧ (s.context .main).calls = [readCall] ∧ decodeRecord readCall = .ok (.read 3) ∧
      s.turns = { agent := .main, grain := .whole } :: []) ∧
    (let s := withCalls live [readCall] [tickCall] [];
      (s.context .main).flight = none ∧ (s.context .main).calls = [readCall] ∧ s.turns = []) ∧
    (let s := withCalls live [] [tickCall] [];
      (s.context .tick).flight = none ∧ (s.context .tick).calls = [tickCall] ∧ decodeRecord tickCall = .ok .advance ∧
      s.turns = [] ∧ s.main.calls = [] ∧ s.main.flight = none) :=
  ⟨⟨rfl, rfl, rfl, rfl⟩, ⟨rfl, rfl, rfl⟩, rfl, rfl, rfl, rfl, rfl, rfl⟩
theorem witness_step_without_call :
    (let s := withCalls live [] [] [tickWhole]; s.turns = tickWhole :: [] ∧ s.context .tick = Context.idle) ∧
    (State.reset.turns = [] ∧ State.reset.main = Context.idle ∧ State.reset.tick = Context.idle) ∧
    (let s := withCalls live [[0x0B#8]] [] [mainWhole];
      s.turns = mainWhole :: [] ∧ (s.context .main).flight = none ∧ (s.context .main).calls = [[0x0B#8]] ∧
      decodeRecord [0x0B#8] = .error (.reservedOrdinal 11)) :=
  ⟨⟨rfl, rfl⟩, ⟨rfl, rfl, rfl⟩, rfl, rfl, rfl, rfl⟩
theorem witness_record_decodes : decodeRecord displayCall = .ok (.valueToDisplay 7 10 false none) := by rfl
theorem witness_record_rejected :
    (11 ≤ (0x0B#8).toNat ∧ (0x0F#8).toNat < 16) ∧ 16 ≤ (0x10#8).toNat := by decide

/-- Positions at the two sides of the range, for `read`, `write` and the direct accesses. -/
theorem witness_positions : 3 < State.reset.cfg.digits ∧ State.reset.cfg.digits ≤ 4 := by decide
theorem witness_initialize :
    State.reset.init = false ∧ State.reset.busy = false ∧
    PinMapLegal State.reset.cfg [10, 11, 12, 13] [2, 3, 4, 5, 6, 7, 8, 9] := by decide
theorem witness_initialize_refused :
    reentrant.busy = true ∧ (live.busy = false ∧ live.init = true) ∧
    (State.reset.busy = false ∧ State.reset.init = false ∧ [10, 11, 12].length ≠ State.reset.cfg.digits) ∧
    [2, 3, 4, 5, 6, 7, 8, 9, 10].length ≠ State.reset.cfg.segments ∧
    ([10, 11, 12, 2].length = State.reset.cfg.digits ∧ [2, 3, 4, 5, 6, 7, 8, 9].length = State.reset.cfg.segments ∧
      ¬([10, 11, 12, 2] ++ [2, 3, 4, 5, 6, 7, 8, 9]).Nodup) := by decide
theorem witness_engine_gated : reentrant.busy = true ∧ State.reset.busy = false ∧ State.reset.init = false := by decide

/-- The five cases of `advanceToDigit`: `dark` is Blanked and `live` is in `Showing(1)`. -/
theorem witness_advanceToDigit_cases :
    (dark.ready ∧ PinMapLegal dark.cfg dark.dpin dark.spin ∧ dark.cur.legal dark.cfg.digits = true) ∧
    (dark.cfg.digits ≤ 4 ∧ dark.cur = .blanked) ∧ dark.dpin[3]? = some 13 ∧
    (live.ready ∧ PinMapLegal live.cfg live.dpin live.spin ∧ live.cur.legal live.cfg.digits = true) ∧
    (live.dpin[3]? = some 13 ∧ live.dpin[1]? = some 11 ∧ 1 ≠ 3 ∧ live.cur = .showing 1) ∧ live.cfg.digits ≤ 4 := by decide
theorem witness_blanked_to_blank : dark.ready ∧ dark.cur = .blanked ∧ dark.cfg.digits ≤ 4 := by decide
theorem witness_out_of_range_target : Consistent live ∧ DigitLinesSafe live ∧ live.ready ∧ live.cfg.digits ≤ 4 :=
  ⟨live_consistent, live_safe, by decide⟩
theorem witness_rewriting_step :
    (Consistent live ∧ DigitLinesSafe live ∧ live.ready ∧ 3 < live.cfg.digits ∧ live.cur ≠ .showing 3) ∧
    live.spin[7]? = some 9 ∧
    (Consistent dark ∧ DigitLinesSafe dark ∧ dark.ready ∧ 0 < dark.cfg.digits ∧ dark.cur ≠ .showing 0) :=
  ⟨⟨live_consistent, live_safe, by decide⟩, by decide, dark_consistent, dark_safe, by decide⟩
theorem witness_no_double_write :
    PinMapLegal live.cfg live.dpin live.spin ∧ ∃ t, exec (.advanceToDigit 3) live = .next t := ⟨by decide, _, rfl⟩

/-- A step to the next digit, the wrap, and Blanked. -/
theorem witness_advance :
    (live.ready ∧ live.cur = .showing 1 ∧ 1 < live.cfg.digits) ∧
    ((at_ (.showing 3)).ready ∧ (at_ (.showing 3)).cur = .showing 3 ∧ 3 + 1 = (at_ (.showing 3)).cfg.digits) ∧
    (dark.ready ∧ dark.cur = .blanked) := by decide
theorem witness_setBlank : (live.ready ∧ 1 ≤ live.cfg.digits ∧ live.cfg.digits ≤ 4) ∧ (single.ready ∧ 1 ≤ single.cfg.digits) := by
  decide
theorem witness_isBlank : (live.ready ∧ live.cur = .showing 1) ∧ (dark.ready ∧ dark.cur = .blanked) := by decide

/-- One completion for each operation: the hypothesis `exec i s = .next t` of the frame statements. -/
theorem witness_operations_complete :
    (∃ t, exec (.read 3) live = .next t) ∧ (∃ t, exec (.write 3 0xFF#8) live = .next t) ∧ (∃ t, exec (.daRead 4) live = .next t) ∧
    (∃ t, exec (.daWrite 4 0x55#8) live = .next t) ∧ (∃ t, exec (bringUp true) fresh = .next t) ∧
    (∃ t, exec (.advanceToDigit 4) live = .next t) ∧ (∃ t, exec .advance live = .next t) ∧
    (∃ t, exec (.setBlank true) live = .next t) ∧ (∃ t, exec .isBlank live = .next t) ∧
    (∃ t, exec (.digitToBitmap 16 false) live = .next t) ∧ (∃ t, exec (.valueToDisplay 71 36 false none) live = .next t) :=
  ⟨⟨_, rfl⟩, ⟨_, rfl⟩, ⟨_, rfl⟩, ⟨_, rfl⟩, ⟨_, rfl⟩, ⟨_, rfl⟩, ⟨_, rfl⟩, ⟨_, rfl⟩, ⟨_, rfl⟩, ⟨_, rfl⟩, ⟨_, rfl⟩⟩

/-- Addresses outside what the storing operations store to: beside the cell, out of range, and a rejected digit's cell (V21). -/
theorem witness_cells_outside_stores :
    (2 ≠ 3 ∧ live.cfg.digits ≤ 4) ∧ 15 < digitOf live.cfg.digits 71 36 3 := by decide
theorem witness_glyphs : State.reset.cfg.admissible = true ∧ 15 ≤ 15 ∧ 6 < 7 := by decide
theorem witness_digit_rejected : 15 < 16 ∧ 2 ≤ 36 ∧ 3 < marked.cfg.digits ∧ 15 < digitOf marked.cfg.digits 71 36 3 := by decide
theorem witness_radix : 2 ≤ 2 ∧ 2 ≤ 16 ∧ 16 ≤ 16 ∧ 1 < 2 := by decide

/-- Position 2 of V4 is blank, position 3 of it and position 1 of V8 are shown. -/
theorem witness_suppression :
    (0 < 10 ^ (marked.cfg.digits - 1 - 2) ∧ (∀ q, none = some q → 2 < q) ∧ 2 + 1 ≠ marked.cfg.digits) ∧
    3 + 1 = marked.cfg.digits ∧ ¬(∀ q, some 1 = some q → 1 < q) :=
  ⟨⟨by decide, (fun q h => nomatch h), by decide⟩, by decide, fun h => absurd (h 1 rfl) (by decide)⟩
theorem witness_overflow : 2 ≤ 10 ∧ 10 ^ marked.cfg.digits ≤ 12345 ∧ 3 < marked.cfg.digits ∧ digitOf marked.cfg.digits 12345 10 3 ≤ 15 := by
  decide
theorem witness_content_and_engine_kinds :
    (Instr.valueToDisplay 7 10 false none).isContent = true ∧ (Instr.setBlank true).isContent = false ∧ live.init = true := by decide
theorem witness_step_configuration : live.init = true ∧ ∃ t, step (withCalls live [displayCall] [] []) = .next t := ⟨by decide, _, rfl⟩

/-- Before `initialize`, a step that completes and stays so, and one that initialises. -/
theorem witness_before_initialize :
    (withCalls fresh [readCall] [] []).init = false ∧ (∃ t, step (withCalls fresh [readCall] [] []) = .next t ∧ t.init = false) ∧
    ∃ t, step (withCalls fresh [encode (bringUp false)] [] []) = .next t ∧ t.init = true :=
  ⟨by decide, ⟨_, rfl, rfl⟩, _, rfl, rfl⟩
theorem witness_no_decimal_point : b2.cfg.decimalPoint = false ∧ ∃ t, exec (.advanceToDigit 1) b2 = .next t := ⟨by decide, _, rfl⟩
theorem witness_unit_turns :
    let s := withCalls live [displayCall, readCall] [tickCall] [mainUnit, mainUnit, mainUnit, mainUnit, tickWhole];
    (3 < s.cfg.digits ∧ 3 + 1 = s.cfg.digits) ∧ 2 ≤ 10 ∧ (s.context .main).flight = none ∧ (s.context .main).calls = displayCall :: [readCall] ∧
    decodeRecord displayCall = .ok (.valueToDisplay 7 10 false none) ∧
    s.turns = List.replicate 3 { agent := .main, grain := .unit } ++ { agent := .main, grain := .unit } :: [tickWhole] :=
  ⟨by decide, by decide, rfl, rfl, rfl, rfl⟩
theorem witness_unit_turns_then_whole :
    let s := withCalls live [displayCall] [] [mainUnit, mainWhole];
    1 < s.cfg.digits ∧ (s.context .main).flight = none ∧ (s.context .main).calls = displayCall :: [] ∧
    s.turns = List.replicate 1 { agent := .main, grain := .unit } ++ { agent := .main, grain := .whole } :: [] :=
  ⟨by decide, rfl, rfl, rfl⟩

/-- A tick before `initialize` on a unit turn, and on the default turn; a tick in Blanked, on a whole turn and on two turns. -/
theorem witness_tick :
    (let s := withCalls fresh [] [tickCall] [{ agent := .tick, grain := .unit }];
      s.init = false ∧ s.busy = false ∧ s.tick = { calls := tickCall :: [], flight := none } ∧
      s.turns = { agent := .tick, grain := .unit } :: []) ∧
    (let s := withCalls fresh [] [tickCall] [];
      s.init = false ∧ s.busy = false ∧ s.turns = [] ∧ s.main = Context.idle) ∧
    (let s := withCalls dark [] [tickCall] [tickWhole];
      s.ready ∧ s.cur = .blanked ∧ s.tick = { calls := tickCall :: [], flight := none } ∧
      s.turns = { agent := .tick, grain := .whole } :: []) ∧
    (let s := withCalls dark [] [tickCall] [{ agent := .tick, grain := .unit }, tickWhole];
      s.ready ∧ s.cur = .blanked ∧ s.turns = { agent := .tick, grain := .unit } :: { agent := .tick, grain := .whole } :: []) := by
  decide

/-- Calls refused at their start: an engine operation, a `read` and a `valueToDisplay`. -/
theorem witness_refused_call :
    (let s := withCalls fresh [tickCall] [] [mainUnit];
      (s.context .main).flight = none ∧ (s.context .main).calls = tickCall :: [] ∧ decodeRecord tickCall = .ok .advance ∧
      s.turns = { agent := .main, grain := .unit } :: [] ∧ exec .advance s = .refused .notInitialized) ∧
    exec (.read 4) (withCalls fresh [[0x00#8, 0x04#8]] [] [mainUnit]) = .refused .readOutOfRange ∧
    exec (.valueToDisplay 7 1 false none) fresh = .refused .badRadix :=
  ⟨⟨rfl, rfl, rfl, rfl, rfl⟩, rfl, rfl⟩
theorem witness_in_flight_finishes :
    Consistent { reentrant with turns := [mainUnit] } ∧ (reentrant.context mainUnit.agent).flight = some (.engine (.setBlank true)) :=
  ⟨by constructor <;> decide, rfl⟩
theorem witness_content_during_engine :
    let s := withCalls live [[0x01#8, 0x02#8, 0xFF#8]] [tickCall] [{ agent := .tick, grain := .unit }, mainWhole, tickWhole];
    Agent.tick ≠ .main ∧ s.busy = false ∧ (s.context .tick).flight = none ∧ (s.context .main).flight = none ∧
    (s.context .tick).calls = tickCall :: [] ∧ (s.context .main).calls = [0x01#8, 0x02#8, 0xFF#8] :: [] ∧
    decodeRecord tickCall = .ok .advance ∧ decodeRecord [0x01#8, 0x02#8, 0xFF#8] = .ok (.write 2 0xFF#8) ∧
    Instr.advance.holdsBusy = true ∧ s.startStop .advance = none ∧ (Instr.write 2 0xFF#8).isContent = true ∧ ∃ t, Sys2Proof.core.run 3 s = .next t :=
  ⟨by decide, rfl, rfl, rfl, rfl, rfl, rfl, rfl, rfl, by decide, rfl, _, rfl⟩
theorem witness_reentering :
    reentrant.busy = true ∧ (reentrant.context .tick).flight = none ∧ (reentrant.context .tick).calls = tickCall :: [] ∧
    decodeRecord tickCall = .ok .advance ∧ Instr.advance.isContent = false ∧
    reentrant.turns = { agent := .tick, grain := .whole } :: [] := ⟨rfl, rfl, rfl, rfl, rfl, rfl⟩
theorem witness_ticks_complete : ∃ t, ticks 4 live = .next t := ⟨_, rfl⟩
theorem witness_ticks_in_order : live.ready ∧ live.cur = .showing 1 ∧ 1 < live.cfg.digits := by decide
theorem witness_ticks_show :
    Consistent live ∧ DigitLinesSafe live ∧ live.ready ∧ live.cur = .showing 1 ∧ 2 ≤ live.cfg.digits ∧ 1 ≤ 1 :=
  ⟨live_consistent, live_safe, by decide⟩
theorem witness_one_digit :
    Consistent single ∧ DigitLinesSafe single ∧ single.ready ∧ single.cur = .showing 0 ∧ single.cfg.digits = 1 :=
  ⟨single_consistent, single_safe, by decide⟩
theorem witness_ticks_blanked : dark.ready ∧ dark.cur = .blanked ∧ 1 ≤ 1 := by decide

end Sys2Proof.Tests
end

/-! SUPPORT. The unchecked write, and that no operation observes `SCRATCH` (20_memory.md R53, R54). Every named operation of the
state commutes with a change of `SCRATCH`, so every operation does but `daWrite`, which may overwrite it. -/

namespace Sys2Proof.Machine

section

/-- The state with another content of the scratch cell. -/
def State.withScratch (s : State) (b : Byte) : State := { s with scratch := b }

variable (s : State) (b : Byte)

@[simp] theorem State.withScratch_cfg : (s.withScratch b).cfg = s.cfg := rfl

@[simp] theorem State.withScratch_withScratch (c : Byte) : (s.withScratch b).withScratch c = s.withScratch c := rfl

theorem mapNext_withScratch_mapNext (c : Byte) (o : Host.Outcome State Fault Refusal) :
    mapNext (·.withScratch c) (mapNext (·.withScratch b) o) = mapNext (·.withScratch c) o := by
  cases o <;> rfl

/-! ### The named operations of the state -/

@[simp] theorem State.returns_withScratch (r : Result) : (s.withScratch b).returns r = (s.returns r).withScratch b := rfl

@[simp] theorem State.memRead_withScratch (p : Nat) :
    (s.withScratch b).memRead p = ((s.memRead p).1, (s.memRead p).2.withScratch b) := by
  by_cases h : p < s.cfg.digits <;>
  · simp only [State.memRead, State.inRange, State.withScratch_cfg, h, if_true, if_false]
    rfl

@[simp] theorem State.store_withScratch (p : Nat) (v : Byte) : (s.withScratch b).store p v = (s.store p v).withScratch b := by
  by_cases h : p < s.cfg.digits
  · simp only [State.store, State.inRange, State.withScratch_cfg, h, if_true]
    rfl
  · simp only [State.store, State.inRange, State.withScratch_cfg, h, if_false]

/-- An out-of-range write leaves nothing of the old content of `SCRATCH`; an in-range one does not look at it. -/
theorem State.memWrite_withScratch (p : Nat) (v c : Byte) :
    ((s.withScratch b).memWrite p v).withScratch c = (s.memWrite p v).withScratch c := by
  by_cases h : p < s.cfg.digits <;>
  · simp only [State.memWrite, State.inRange, State.withScratch_cfg, h, if_true, if_false]
    rfl

@[simp] theorem State.emit_withScratch (e : PinEvent) : (s.withScratch b).emit e = (s.emit e).withScratch b := by
  cases e <;> rfl

@[simp] theorem State.emitAll_withScratch (es : List PinEvent) :
    (s.withScratch b).emitAll es = (s.emitAll es).withScratch b := by
  induction es generalizing s with
  | nil => rfl
  | cons e es ih => simp [ih]

/-! ### The operations -/

@[simp] theorem State.storeDigit_withScratch (p : Nat) (o : Option Byte) :
    (s.withScratch b).storeDigit p o = (s.storeDigit p o).withScratch b := by
  cases o with
  | none => rfl
  | some v => exact s.store_withScratch b p v

@[simp] theorem displayUnit_withScratch (j : DisplayJob) :
    displayUnit j (s.withScratch b) = ((displayUnit j s).1, (displayUnit j s).2.withScratch b) := by
  unfold displayUnit
  split
  · rfl
  · simp

theorem displayUnits_withScratch (n : Nat) (j : DisplayJob) :
    displayUnits n j (s.withScratch b) = ((displayUnits n j s).1, (displayUnits n j s).2.withScratch b) := by
  induction n generalizing j s with
  | zero => rfl
  | succ n ih => simp [displayUnits_succ, ih]

theorem execValueToDisplay_withScratch (value radix : Nat) (zeros : Bool) (dpPos : Option Nat) :
    execValueToDisplay value radix zeros dpPos (s.withScratch b) =
      mapNext (·.withScratch b) (execValueToDisplay value radix zeros dpPos s) := by
  have hjob : displayJob value radix zeros dpPos (s.withScratch b) = displayJob value radix zeros dpPos s := rfl
  unfold execValueToDisplay
  split
  · rfl
  · simp [hjob, displayUnits_withScratch, mapNext]

theorem execInitialize_withScratch (dp sp : List PinId) (startBlanked : Bool) :
    execInitialize dp sp startBlanked (s.withScratch b) =
      mapNext (·.withScratch b) (execInitialize dp sp startBlanked s) := by
  have hstop : (s.withScratch b).initializeStop dp sp = s.initializeStop dp sp := rfl
  unfold execInitialize
  rw [hstop]
  cases s.initializeStop dp sp with
  | some r => rfl
  | none =>
    simp only [State.emitAll_withScratch, State.withScratch_cfg]
    rfl

@[simp] theorem State.engineStop_withScratch : (s.withScratch b).engineStop = s.engineStop := rfl

theorem State.moveTo_withScratch (target : Nat) : (s.withScratch b).moveTo target = (s.moveTo target).withScratch b := by
  have hevents : (s.withScratch b).transitionEvents target = s.transitionEvents target := rfl
  simp only [State.moveTo, hevents, State.emitAll_withScratch]
  rfl

theorem execAdvanceToDigit_withScratch (target : Nat) :
    execAdvanceToDigit target (s.withScratch b) = mapNext (·.withScratch b) (execAdvanceToDigit target s) := by
  unfold execAdvanceToDigit
  rw [State.engineStop_withScratch]
  cases s.engineStop with
  | some r => rfl
  | none => simp [State.moveTo_withScratch, mapNext]

/-- R126: `advance` is `advanceToDigit` of its target. -/
theorem execAdvance_eq : execAdvance s = execAdvanceToDigit s.advanceTarget s := rfl

/-- R127: `setBlank` is `advanceToDigit` of a target out of range or of digit 0. -/
theorem execSetBlank_eq (flag : Bool) : execSetBlank flag s = execAdvanceToDigit (if flag then s.blankTarget else 0) s := rfl

theorem execIsBlank_withScratch : execIsBlank (s.withScratch b) = mapNext (·.withScratch b) (execIsBlank s) := by
  unfold execIsBlank
  rw [State.engineStop_withScratch]
  cases s.engineStop <;> rfl

theorem execRead_withScratch (pos : Nat) : execRead pos (s.withScratch b) = mapNext (·.withScratch b) (execRead pos s) := by
  by_cases h : pos < s.cfg.digits <;>
  · simp only [execRead, State.inRange, State.withScratch_cfg, h, if_true, if_false]
    rfl

theorem execDigitToBitmap_withScratch (value : Nat) (point : Bool) :
    execDigitToBitmap value point (s.withScratch b) = mapNext (·.withScratch b) (execDigitToBitmap value point s) := by
  unfold execDigitToBitmap
  rw [State.withScratch_cfg]
  cases bitmapOf s.cfg value point <;> rfl

/-- Every operation but `daWrite` leaves `SCRATCH` as it finds it and does the same whatever it holds. -/
theorem exec_withScratch {i : Instr} (hi : ∀ pos v, i ≠ .daWrite pos v) :
    exec i (s.withScratch b) = mapNext (·.withScratch b) (exec i s) := by
  cases i with
  | read pos => exact execRead_withScratch s b pos
  | write pos v => simp [exec, execWrite, mapNext]
  | daRead pos => simp [exec, execDaRead, mapNext]
  | daWrite pos v => exact absurd rfl (hi pos v)
  | initializeEngine dp sp startBlanked => exact execInitialize_withScratch s b dp sp startBlanked
  | advanceToDigit target => exact execAdvanceToDigit_withScratch s b target
  | advance =>
    simp only [exec, execAdvance_eq]
    exact execAdvanceToDigit_withScratch s b s.advanceTarget
  | setBlank flag =>
    simp only [exec, execSetBlank_eq]
    exact execAdvanceToDigit_withScratch s b (if flag then s.blankTarget else 0)
  | isBlank => exact execIsBlank_withScratch s b
  | digitToBitmap value point => exact execDigitToBitmap_withScratch s b value point
  | valueToDisplay value radix zeros dpPos => exact execValueToDisplay_withScratch s b value radix zeros dpPos

theorem execDaWrite_withScratch (pos : Nat) (v c : Byte) :
    mapNext (·.withScratch c) (execDaWrite pos v (s.withScratch b)) = mapNext (·.withScratch c) (execDaWrite pos v s) := by
  simp only [execDaWrite, mapNext, ← State.returns_withScratch, State.memWrite_withScratch]

/-- No operation observes `SCRATCH` (R54). -/
theorem exec_ignores_scratch (i : Instr) (c : Byte) :
    mapNext (·.withScratch c) (exec i (s.withScratch b)) = mapNext (·.withScratch c) (exec i s) := by
  by_cases hi : ∃ pos v, i = .daWrite pos v
  · obtain ⟨pos, v, rfl⟩ := hi
    exact execDaWrite_withScratch s b pos v c
  · rw [exec_withScratch s b fun pos v h => hi ⟨pos, v, h⟩, mapNext_withScratch_mapNext]

/-! ### The unchecked write -/

/-- `MemWrite` changes the bitmaps and `SCRATCH` only (R54). -/
theorem State.memWrite_eq (p : Nat) (v : Byte) :
    s.memWrite p v =
      { s with bm := (s.memWrite p v).bm, scratch := if p < s.cfg.digits then s.scratch else v } := by
  unfold State.memWrite
  by_cases h : p < s.cfg.digits
  · simp [h]
  · simp [h]

/-- `DA_WRITE` completes with the effect of `MemWrite` and nothing else (R54, R105). -/
theorem execDaWrite_effect (pos : Nat) (v : Byte) :
    ∃ t, execDaWrite pos v s = .next t ∧
      t = { s with bm := t.bm, scratch := if pos < s.cfg.digits then s.scratch else v, ret := .done } ∧
      (∀ a, t.cell a = if a = pos ∧ pos < s.cfg.digits then v else s.cell a) ∧
      (s.cfg.digits ≤ pos → t.bm = s.bm) := by
  refine ⟨(s.memWrite pos v).returns .done, rfl, ?_, fun a => s.cell_memWrite pos a v, fun h => ?_⟩
  · exact congrArg (State.returns · .done) (s.memWrite_eq pos v)
  · rw [State.returns_bm, State.memWrite_bm, if_neg (Nat.not_lt.mpr h)]

end

/-- Settles O14: the effect of `MemWrite`, and every operation's commuting with a change of `SCRATCH`. -/
theorem directWriteStoresOrGoesToScratch : Obligations.DirectWriteStoresOrGoesToScratch := by
  unfold Obligations.DirectWriteStoresOrGoesToScratch
  exact ⟨execDaWrite_effect, fun i s b => exec_ignores_scratch s b i 0x00#8⟩

end Sys2Proof.Machine

/-! SUPPORT. The glyph codes and the decimal-point bit (30_encoding.md R79 to R82), as `digitToBitmap` answers them. -/

namespace Sys2Proof.Machine

/-- An admissible table has the three entries the source fixes (R80). -/
theorem admissible_glyphs {p : Params} (h : p.admissible = true) :
    p.glyph 0 = 0x3F#8 ∧ p.glyph 8 = 0x7F#8 ∧ p.glyph 15 = 0x71#8 := by
  simp only [Params.admissible, Bool.and_eq_true, beq_iff_eq] at h
  obtain ⟨⟨⟨-, h0⟩, h8⟩, h15⟩ := h
  exact ⟨h0, h8, h15⟩

/-- Bit 7 of every glyph is 0 (R79): an entry has seven bits. -/
theorem getLsbD_glyph_seven (p : Params) (v : Nat) : (p.glyph v).getLsbD 7 = false := by
  simp [Params.glyph]

@[simp] theorem pointBit_false : pointBit false = 0#8 := rfl

/-- The point's byte has bit 7 at most (R82). -/
theorem getLsbD_pointBit (point : Bool) (k : Nat) : (pointBit point).getLsbD k = (decide (k = 7) && point) := by
  cases point with
  | false => simp
  | true =>
    have hpow : pointBit true = BitVec.twoPow 8 7 := rfl
    rw [hpow, BitVec.getLsbD_twoPow]
    simp [eq_comm]

theorem bitmapOf_of_le (p : Params) {v : Nat} (point : Bool) (h : v ≤ 15) :
    bitmapOf p v point = some (p.glyph v ||| pointBit point) :=
  if_neg (Nat.not_lt.mpr h)

/-- `digitToBitmap` of a digit up to 15 changes the result only (R141). -/
theorem execDigitToBitmap_of_le (s : State) {v : Nat} (point : Bool) (h : v ≤ 15) :
    execDigitToBitmap v point s = .next (s.returns (.byte (s.cfg.glyph v ||| pointBit point))) := by
  rw [execDigitToBitmap, bitmapOf_of_le s.cfg point h]

/-- Without a decimal point the answer is the glyph itself. -/
theorem execDigitToBitmap_without_point (s : State) {v : Nat} (h : v ≤ 15) :
    execDigitToBitmap v false s = .next (s.returns (.byte (s.cfg.glyph v))) := by
  rw [execDigitToBitmap_of_le s false h, pointBit_false, BitVec.or_zero]

theorem getLsbD_glyph_or_pointBit_seven (p : Params) (v : Nat) (point : Bool) :
    (p.glyph v ||| pointBit point).getLsbD 7 = point := by
  rw [BitVec.getLsbD_or, getLsbD_glyph_seven, getLsbD_pointBit]
  simp

theorem getLsbD_glyph_or_pointBit_of_lt (p : Params) (v : Nat) (point : Bool) {k : Nat} (h : k < 7) :
    (p.glyph v ||| pointBit point).getLsbD k = (p.glyph v).getLsbD k := by
  rw [BitVec.getLsbD_or, getLsbD_pointBit]
  simp [h.ne]

/-- Settles O31: without a point `digitToBitmap` answers the glyph, and admissibility fixes these three. -/
theorem sourceGlyphsAreTheirLiterals : Obligations.SourceGlyphsAreTheirLiterals := by
  unfold Obligations.SourceGlyphsAreTheirLiterals
  intro s hs
  obtain ⟨h0, h8, h15⟩ := admissible_glyphs hs
  simp only [exec]
  refine ⟨?_, ?_, ?_⟩
  · rw [execDigitToBitmap_without_point s (by decide), h0]
    rfl
  · rw [execDigitToBitmap_without_point s (by decide), h8]
    rfl
  · rw [execDigitToBitmap_without_point s (by decide), h15]
    rfl

/-- Settles O32: the answer is the glyph OR-ed with the point's byte, and the two have no bit in common. -/
theorem decimalPointIsBitSevenOverTheGlyph : Obligations.DecimalPointIsBitSevenOverTheGlyph := by
  unfold Obligations.DecimalPointIsBitSevenOverTheGlyph
  intro s value point h
  exact ⟨execDigitToBitmap_of_le s point h, getLsbD_glyph_seven s.cfg value,
    getLsbD_glyph_or_pointBit_seven s.cfg value point, fun _ hk => getLsbD_glyph_or_pointBit_of_lt s.cfg value point hk⟩

end Sys2Proof.Machine

/-! SUPPORT. The guarded write (40_display_state.md R102). -/

namespace Sys2Proof.Machine

section

variable (s : State)

/-- The guarded store changes the bitmaps only (R102). -/
theorem State.store_eq (p : Nat) (v : Byte) : s.store p v = { s with bm := (s.store p v).bm } := by
  unfold State.store
  split <;> rfl

/-- Out of range the guarded store is a no-op on the whole state, the bitmaps included (R102). -/
theorem State.store_of_not_inRange {p : Nat} (v : Byte) (h : ¬ s.inRange p) : s.store p v = s :=
  if_neg h

/-- The segment image reads the pins and the parameters, none of which the guarded store changes (R38, R102). -/
theorem State.segmentImage_store (p : Nat) (v : Byte) : (s.store p v).segmentImage = s.segmentImage := by
  rw [State.store_eq]
  rfl

end

/-- Settles O12: `WRITE` is the guarded store followed by its result, so each clause is a fact about the store. -/
theorem writeStoresOneCellOrNothing : Obligations.WriteStoresOneCellOrNothing := by
  unfold Obligations.WriteStoresOneCellOrNothing
  intro s pos v
  refine ⟨(s.store pos v).returns .done, rfl, ?frame, fun a => s.cell_store pos a v, fun h => ?outOfRange,
    s.segmentImage_store pos v⟩
  case frame => exact congrArg (State.returns · .done) (s.store_eq pos v)
  case outOfRange => rw [State.returns_bm, s.store_of_not_inRange v (Nat.not_lt.mpr h)]

end Sys2Proof.Machine

/-! SUPPORT. `initialize` as the second reset stage (41_multiplex_engine.md R116, R117): what its events leave on the latches, and
what the pins show right after it. -/

namespace Sys2Proof.Machine

section

variable (s : State) (dp sp : List PinId) (startBlanked : Bool)

/-! ### What the events of `initialize` leave on the latches -/

/-- On every pin of the two lists its off level. A pin in both would keep the later one, the segment line's; a legal PinMap has none. -/
theorem State.level_emitAll_initializeEvents (p : Params) (x : PinId) :
    (s.emitAll (initializeEvents p dp sp)).level x =
      if x ∈ sp then some p.segmentOff else if x ∈ dp then some p.digitOff else s.level x := by
  rw [initializeEvents, State.emitAll_append, State.level_emitAll_offs, State.level_emitAll_offs,
    Params.segmentLevel_false, Params.digitLevel_false]

/-- Every pin of the two lists is an output, and no other pin's direction is touched. -/
theorem State.direction_emitAll_initializeEvents (p : Params) (x : PinId) :
    (s.emitAll (initializeEvents p dp sp)).direction x = if x ∈ dp ++ sp then some .out else s.direction x := by
  rw [initializeEvents, State.emitAll_append, State.direction_emitAll_offs, State.direction_emitAll_offs]
  by_cases hs : x ∈ sp <;> simp [hs]

/-! ### The state it leaves -/

/-- What `initialize` leaves of a state: the effects of its events, then the PinMap, the start state and the marks (R116, R117). -/
def State.initialized : State :=
  { (s.emitAll (initializeEvents s.cfg dp sp)) with
    dpin := dp
    spin := sp
    cur := if startBlanked then .blanked else .showing 0
    init := true
    ret := .done }

/-- `initialize` completes where its gate lets it, with the state that `State.initialized` names. -/
theorem execInitialize_of_legal (hinit : s.init = false) (hbusy : s.busy = false) (hpins : PinMapLegal s.cfg dp sp) :
    execInitialize dp sp startBlanked s = .next (s.initialized dp sp startBlanked) := by
  rw [execInitialize, (State.initializeStop_eq_none s dp sp).mpr ⟨hbusy, hinit, hpins⟩]
  rfl

@[simp] theorem State.initialized_cfg : (s.initialized dp sp startBlanked).cfg = s.cfg := State.emitAll_cfg _ _
@[simp] theorem State.initialized_bm : (s.initialized dp sp startBlanked).bm = s.bm := State.emitAll_bm _ _
@[simp] theorem State.initialized_dpin : (s.initialized dp sp startBlanked).dpin = dp := rfl
@[simp] theorem State.initialized_spin : (s.initialized dp sp startBlanked).spin = sp := rfl

/-- `initialize` changes the PinMap, `CUR`, `INIT`, the latches, the trace and the result, nothing else. -/
theorem State.initialized_eq :
    s.initialized dp sp startBlanked =
      { s with
        dpin := dp, spin := sp, cur := (s.initialized dp sp startBlanked).cur, init := true,
        dir := (s.initialized dp sp startBlanked).dir, lvl := (s.initialized dp sp startBlanked).lvl,
        trace := (s.initialized dp sp startBlanked).trace, ret := .done } := by
  unfold State.initialized
  rw [State.emitAll_eq]

theorem State.direction_initialized (x : PinId) :
    (s.initialized dp sp startBlanked).direction x = if x ∈ dp ++ sp then some .out else s.direction x :=
  s.direction_emitAll_initializeEvents dp sp s.cfg x

theorem State.level_initialized (x : PinId) :
    (s.initialized dp sp startBlanked).level x =
      if x ∈ sp then some s.cfg.segmentOff else if x ∈ dp then some s.cfg.digitOff else s.level x :=
  s.level_emitAll_initializeEvents dp sp s.cfg x

variable {dp sp}

theorem State.level_initialized_of_mem_segments {x : PinId} (hx : x ∈ sp) :
    (s.initialized dp sp startBlanked).level x = some s.cfg.segmentOff := by
  rw [State.level_initialized, if_pos hx]

/-- Distinctness of the pins is what keeps a segment's off level from landing on a digit line. -/
theorem State.level_initialized_of_mem_digits (hpins : PinMapLegal s.cfg dp sp) {x : PinId} (hx : x ∈ dp) :
    (s.initialized dp sp startBlanked).level x = some s.cfg.digitOff := by
  obtain ⟨-, -, hnodup⟩ := hpins
  have hdisjoint : x ∉ sp := fun hs => (List.nodup_append.mp hnodup).2.2 x hx x hs rfl
  rw [State.level_initialized, if_neg hdisjoint, if_pos hx]

theorem State.latches_initialized_of_notMem {x : PinId} (hx : x ∉ dp ++ sp) :
    (s.initialized dp sp startBlanked).direction x = s.direction x ∧
      (s.initialized dp sp startBlanked).level x = s.level x := by
  have hlists : x ∉ dp ∧ x ∉ sp := by simpa using hx
  rw [State.direction_initialized, State.level_initialized, if_neg hx, if_neg hlists.2, if_neg hlists.1]
  exact ⟨rfl, rfl⟩

/-! ### What it shows -/

/-- No digit line is energized after `initialize`: each is at its off level. -/
theorem State.energized_initialized (hpins : PinMapLegal s.cfg dp sp) :
    (s.initialized dp sp startBlanked).energized = [] := by
  refine List.eq_nil_iff_forall_not_mem.mpr fun i hi => ?_
  obtain ⟨-, x, hx, hon⟩ := (State.mem_energized _ i).mp hi
  rw [s.level_initialized_of_mem_digits startBlanked hpins (List.mem_of_getElem? hx), State.initialized_cfg] at hon
  exact Params.digitOff_ne_digitOn _ (Option.some.inj hon)

theorem Params.lowSegments_zero (p : Params) : p.lowSegments 0x00#8 = 0x00#8 := by
  unfold Params.lowSegments
  split <;> rfl

/-- The segment image after `initialize` is 0: each segment line has the level of a bit 0. -/
theorem State.segmentImage_initialized (hpins : PinMapLegal s.cfg dp sp) :
    (s.initialized dp sp startBlanked).segmentImage = 0x00#8 := by
  have hlegal : PinMapLegal (s.initialized dp sp startBlanked).cfg (s.initialized dp sp startBlanked).dpin
      (s.initialized dp sp startBlanked).spin := by simpa using hpins
  rw [State.segmentImage_eq (b := 0x00#8) hlegal, Params.lowSegments_zero]
  intro k x hx
  rw [State.initialized_spin] at hx
  rw [s.level_initialized_of_mem_segments startBlanked (List.mem_of_getElem? hx), State.initialized_cfg,
    BitVec.getLsbD_zero, Params.segmentLevel_false]

end

/-- Settles O17: `initialize` answers `State.initialized`, and each clause is a fact about that state. -/
theorem initializeIsTheSecondResetStage : Obligations.InitializeIsTheSecondResetStage := by
  unfold Obligations.InitializeIsTheSecondResetStage
  intro s dp sp b hinit hbusy hpins
  refine ⟨s.initialized dp sp b, execInitialize_of_legal s dp sp b hinit hbusy hpins, rfl, rfl, fun x hx => ?outputs,
    fun x hx => s.level_initialized_of_mem_digits b hpins hx, fun x hx => s.level_initialized_of_mem_segments b hx, rfl, rfl,
    s.initialized_bm dp sp b, s.energized_initialized b hpins, s.segmentImage_initialized b hpins,
    fun x hx => s.latches_initialized_of_notMem b hx, s.initialized_eq dp sp b⟩
  case outputs => rw [State.direction_initialized, if_pos hx]

/-- Settles O22: every target out of range acts as the blank target, and from Blanked that transition is the identity. -/
theorem blankedToBlankDoesNothing : Obligations.BlankedToBlankDoesNothing := by
  unfold Obligations.BlankedToBlankDoesNothing
  intro s target hready hblanked htarget
  have hstay : s.moveTo target = s := by
    rw [s.moveTo_of_le htarget, s.moveTo_blankTarget_of_blanked hblanked]
  calc exec (.advanceToDigit target) s
      = .next ((s.moveTo target).returns .done) := execAdvanceToDigit_of_ready s hready target
    _ = .next (s.returns .done) := by rw [hstay]

end Sys2Proof.Machine

/-! SUPPORT. The success boolean of `valueToDisplay` (42_encoder.md R148). -/

namespace Sys2Proof.Machine

/-- R148: the value fits iff nothing of it is left above the `N` digits, whatever the digits and their suppression were. -/
theorem execValueToDisplay_ret {value radix : Nat} {zeros : Bool} {dpPos : Option Nat} {s t : State}
    (h : execValueToDisplay value radix zeros dpPos s = .next t) :
    t.ret = .bool (decide (value < radix ^ s.cfg.digits)) := by
  obtain ⟨-, hstate, -⟩ := execValueToDisplay_cases h
  rw [hstate]

/-- Settles O34: from radix 2 on `valueToDisplay` completes, and what is left of the value after `N` digits decides its result. -/
theorem valueFitsIffBelowTheRadixPower : Obligations.ValueFitsIffBelowTheRadixPower := by
  unfold Obligations.ValueFitsIffBelowTheRadixPower
  intro s value radix zeros dpPos hradix
  obtain ⟨t, hnext⟩ := execValueToDisplay_next hradix value zeros dpPos s
  exact ⟨t, hnext, execValueToDisplay_ret hnext⟩

end Sys2Proof.Machine

/-! SUPPORT. Leaving the display blank (60_exceptions.md R166): what a transition to a target out of range emits, and what the pins
show after it. -/

namespace Sys2Proof.Machine

section

variable {s : State} {target c : Nat}

/-! ### What the transition emits -/

theorem State.moveTo_of_blanked_of_le (hcur : s.cur = .blanked) (htarget : s.cfg.digits ≤ target) : s.moveTo target = s := by
  rw [s.moveTo_of_le htarget, s.moveTo_blankTarget_of_blanked hcur]

/-- From a digit to blank the outgoing line goes off first and then every segment line goes dark; no line is energized (R118). -/
theorem State.transitionEvents_of_showing_of_le (hcur : s.cur = .showing c) (htarget : s.cfg.digits ≤ target) :
    s.transitionEvents target = s.deenergize c ++ s.driveAll 0x00#8 := by
  have hout : ¬s.inRange target := Nat.not_lt.mpr htarget
  have hmoves : s.cur ≠ s.targetState target := by simp [hcur, s.targetState_of_le htarget]
  have hleave : s.leaveEvents = s.deenergize c := by rw [State.leaveEvents, hcur]
  rw [State.transitionEvents, if_neg hmoves, hleave, State.sample, if_neg hout, State.enterEvents, if_neg hout, List.append_nil]

/-! ### What it leaves on the lines -/

theorem State.mem_energized_emitAll_deenergize (hpins : PinMapLegal s.cfg s.dpin s.spin) (hc : c < s.cfg.digits) (i : Nat) :
    i ∈ (s.emitAll (s.deenergize c)).energized ↔ i ∈ s.energized ∧ i ≠ c := by
  obtain ⟨x, hx⟩ := hpins.digit_exists hc
  have hevent : s.deenergize c = [.setLevel x s.cfg.digitOff] := by
    rw [State.deenergize, hx, Params.digitLevel_false]
  rw [hevent, State.emitAll_cons, State.emitAll_nil, State.mem_energized_off hpins hx]

/-- Segment writes leave the digit lines alone, also when digit events came before them. -/
theorem State.mem_energized_emitAll_append_driveAll (hpins : PinMapLegal s.cfg s.dpin s.spin) (es : List PinEvent) (b : Byte) (i : Nat) :
    i ∈ (s.emitAll (es ++ s.driveAll b)).energized ↔ i ∈ (s.emitAll es).energized := by
  rw [State.emitAll_append]
  refine State.mem_energized_emitAll_segments (by simpa using hpins) (fun e he => ?_) i
  obtain ⟨k, x, -, hx, rfl⟩ := s.mem_driveAll he
  exact ⟨k, x, _, by simpa using hx, rfl⟩

/-- Segment writes of a byte show its low `S` bits, whatever events came before them. -/
theorem State.segmentImage_emitAll_append_driveAll (hpins : PinMapLegal s.cfg s.dpin s.spin) (es : List PinEvent) (b : Byte) :
    (s.emitAll (es ++ s.driveAll b)).segmentImage = s.cfg.lowSegments b := by
  have hlevel : ∀ k x, s.spin[k]? = some x →
      (s.emitAll (es ++ s.driveAll b)).level x = some (s.cfg.segmentLevel (b.getLsbD k)) := fun k x hx => by
    rw [State.emitAll_append, State.level_driveAll hpins _ b hx]
  rw [State.segmentImage_eq (b := b) (by simpa using hpins) (by simpa using hlevel), State.emitAll_cfg]

/-! ### What it shows -/

/-- Only the current digit's line can be on, and the transition to blank switches that one off. -/
theorem State.energized_moveTo_of_le (hpins : PinMapLegal s.cfg s.dpin s.spin) (hlegal : s.cur.legal s.cfg.digits = true)
    (honly : ∀ i ∈ s.energized, s.cur = .showing i) (htarget : s.cfg.digits ≤ target) : (s.moveTo target).energized = [] := by
  refine List.eq_nil_iff_forall_not_mem.mpr fun i hi => ?_
  cases hcur : s.cur with
  | blanked =>
    rw [State.moveTo_of_blanked_of_le hcur htarget] at hi
    cases hcur.symm.trans (honly i hi)
  | showing c =>
    have hc : c < s.cfg.digits := by simpa [hcur, Cur.legal] using hlegal
    have hon : i ∈ (s.emitAll (s.deenergize c ++ s.driveAll 0x00#8)).energized := by
      rw [← State.transitionEvents_of_showing_of_le hcur htarget]
      exact hi
    rw [State.mem_energized_emitAll_append_driveAll hpins, State.mem_energized_emitAll_deenergize hpins hc] at hon
    obtain ⟨hbefore, hne⟩ := hon
    cases hcur.symm.trans (honly i hbefore)
    exact hne rfl

/-- Blanked is dark already, and leaving a digit for it drives every segment line with a bit 0. -/
theorem State.segmentImage_moveTo_of_le (hpins : PinMapLegal s.cfg s.dpin s.spin)
    (hdark : s.cur = .blanked → s.segmentImage = 0x00#8) (htarget : s.cfg.digits ≤ target) :
    (s.moveTo target).segmentImage = 0x00#8 := by
  cases hcur : s.cur with
  | blanked => rw [State.moveTo_of_blanked_of_le hcur htarget, hdark hcur]
  | showing c =>
    calc (s.moveTo target).segmentImage
        = (s.emitAll (s.transitionEvents target)).segmentImage := rfl
      _ = (s.emitAll (s.deenergize c ++ s.driveAll 0x00#8)).segmentImage := by
        rw [State.transitionEvents_of_showing_of_le hcur htarget]
      _ = 0x00#8 := by rw [State.segmentImage_emitAll_append_driveAll hpins, Params.lowSegments_zero]

end

/-- Settles O23: a ready state passes the gate whatever the target is, and the transition to blank leaves every line off. -/
theorem outOfRangeTargetBlanksTheDisplay : Obligations.OutOfRangeTargetBlanksTheDisplay := by
  unfold Obligations.OutOfRangeTargetBlanksTheDisplay
  intro s target hcons hsafe hready htarget
  have hinit : s.init = true := hready.1
  have hpins := hcons.pinMap hinit
  exact ⟨(s.moveTo target).returns .done, execAdvanceToDigit_of_ready s hready target, s.targetState_of_le htarget,
    State.energized_moveTo_of_le hpins hcons.current (hsafe.current hinit) htarget,
    State.segmentImage_moveTo_of_le hpins (hsafe.dark hinit) htarget⟩

end Sys2Proof.Machine

/-! SUPPORT. The call records as a whole (30_encoding.md section 5; log 1): the decoder undoes the encoder, reads nothing else, and
rejects by name. The operand readers and writers are paired in `Laws/Codec.lean`. -/

namespace Sys2Proof

/-! ### The decoder undoes the encoder -/

/-- The operand bytes of an operation, read under its ordinal, give it back, whatever follows. -/
theorem decodeOperands_encodeOperands (i : Instr) (bs : List Byte) :
    decodeOperands i.ordinal (encodeOperands i ++ bs) = .ok (i, bs) := by
  cases i <;> simp [decodeOperands, encodeOperands, Instr.ordinal]

theorem Instr.ordinal_lt (i : Instr) : i.ordinal < 11 := by
  cases i <;> simp [Instr.ordinal]

/-- The first byte of a record holds the ordinal and nothing above it. -/
theorem toNat_ofNat_ordinal (i : Instr) : (BitVec.ofNat 8 i.ordinal).toNat = i.ordinal := by
  have hlt := i.ordinal_lt
  exact Nat.mod_eq_of_lt (by omega)

/-- A record is read as its operation, whatever follows. -/
theorem decodeCall_encode (i : Instr) (bs : List Byte) : decodeCall (encode i ++ bs) = .ok (i, bs) := by
  have hlt := i.ordinal_lt
  have hhigh : i.ordinal / 16 = 0 := by omega
  have hlow : i.ordinal % 16 = i.ordinal := by omega
  simp only [encode, List.cons_append, decodeCall, toNat_ofNat_ordinal, hhigh, if_true, hlow, decodeOperands_encodeOperands]

/-- Settles O8: the first byte gives the ordinal back, and under it every operand is read as it was written. -/
theorem decodeOfEncodeGivesTheOperationBack : Obligations.DecodeOfEncodeGivesTheOperationBack := by
  unfold Obligations.DecodeOfEncodeGivesTheOperationBack
  intro i
  rw [decodeRecord, ← List.append_nil (encode i), decodeCall_encode]

/-! ### It reads nothing the encoder does not write -/

/-- What is read under an ordinal is an operation of that ordinal, from the operand bytes of that operation. -/
theorem decodeOperands_eq_ok {op : Nat} {bs rest : List Byte} {i : Instr} (h : decodeOperands op bs = .ok (i, rest)) :
    i.ordinal = op ∧ bs = encodeOperands i ++ rest := by
  unfold decodeOperands at h
  split at h
  case h_1 | h_3 | h_6 =>
    obtain ⟨n, _, hn, h⟩ := followedBy_eq_ok h
    cases h
    exact ⟨rfl, takeNat_eq_ok hn⟩
  case h_2 | h_4 =>
    obtain ⟨n, _, hn, h⟩ := followedBy_eq_ok h
    obtain ⟨v, _, hv, h⟩ := followedBy_eq_ok h
    cases h
    exact ⟨rfl, by rw [takeNat_eq_ok hn, takeByte_eq_ok hv]; simp [encodeOperands]⟩
  case h_5 =>
    obtain ⟨dp, _, hdp, h⟩ := followedBy_eq_ok h
    obtain ⟨sp, _, hsp, h⟩ := followedBy_eq_ok h
    obtain ⟨flag, _, hflag, h⟩ := followedBy_eq_ok h
    cases h
    exact ⟨rfl, by rw [takePins_eq_ok hdp, takePins_eq_ok hsp, takeBool_eq_ok hflag]; simp [encodeOperands]⟩
  case h_7 | h_9 =>
    cases h
    exact ⟨rfl, rfl⟩
  case h_8 =>
    obtain ⟨flag, _, hflag, h⟩ := followedBy_eq_ok h
    cases h
    exact ⟨rfl, takeBool_eq_ok hflag⟩
  case h_10 =>
    obtain ⟨n, _, hn, h⟩ := followedBy_eq_ok h
    obtain ⟨flag, _, hflag, h⟩ := followedBy_eq_ok h
    cases h
    exact ⟨rfl, by rw [takeNat_eq_ok hn, takeBool_eq_ok hflag]; simp [encodeOperands]⟩
  case h_11 =>
    obtain ⟨n, _, hn, h⟩ := followedBy_eq_ok h
    obtain ⟨radix, _, hradix, h⟩ := followedBy_eq_ok h
    obtain ⟨zeros, _, hzeros, h⟩ := followedBy_eq_ok h
    obtain ⟨dpPos, _, hdpPos, h⟩ := followedBy_eq_ok h
    cases h
    exact ⟨rfl, by
      rw [takeNat_eq_ok hn, takeNat_eq_ok hradix, takeBool_eq_ok hzeros, takeOptional_eq_ok hdpPos]; simp [encodeOperands]⟩
  case h_12 => cases h

theorem decodeCall_eq_ok {bs rest : List Byte} {i : Instr} (h : decodeCall bs = .ok (i, rest)) : bs = encode i ++ rest := by
  cases bs with
  | nil => cases h
  | cons b bs =>
    simp only [decodeCall] at h
    split at h
    · rename_i hhigh
      obtain ⟨hop, hbs⟩ := decodeOperands_eq_ok h
      have hb : i.ordinal = b.toNat := by omega
      rw [encode, hb, hbs]
      simp
    · cases h

/-- A record that decodes is read to its end. -/
theorem decodeRecord_eq_ok {bytes : List Byte} {i : Instr} (h : decodeRecord bytes = .ok i) : decodeCall bytes = .ok (i, []) := by
  unfold decodeRecord at h
  split at h
  · cases h
  · rename_i i' hcall
    cases h
    exact hcall
  · cases h

/-- Settles O9: each operand reader reads only what its writer writes, and the ordinal is the whole first byte. -/
theorem recordThatDecodesIsItsEncoding : Obligations.RecordThatDecodesIsItsEncoding := by
  unfold Obligations.RecordThatDecodesIsItsEncoding
  intro bytes i h
  rw [decodeCall_eq_ok (decodeRecord_eq_ok h), List.append_nil]

/-! ### Rejection by name -/

/-- An ordinal above the table's last is reserved, whatever the operand bytes are (R87). -/
theorem decodeOperands_reserved {op : Nat} (h : 11 ≤ op) (bs : List Byte) :
    decodeOperands op bs = .error (.reservedOrdinal op) := by
  obtain ⟨n, rfl⟩ := Nat.exists_eq_add_of_le' h
  rfl

theorem decodeCall_reservedOrdinal {b : Byte} (hlow : 11 ≤ b.toNat) (hhigh : b.toNat < 16) (bs : List Byte) :
    decodeCall (b :: bs) = .error (.reservedOrdinal b.toNat) := by
  rw [decodeCall, if_pos (Nat.div_eq_of_lt hhigh), Nat.mod_eq_of_lt hhigh, decodeOperands_reserved hlow]

theorem decodeCall_reservedBits {b : Byte} (h : 16 ≤ b.toNat) (bs : List Byte) :
    decodeCall (b :: bs) = .error .reservedBits := by
  rw [decodeCall, if_neg (by omega)]

/-- Settles O10: the first byte decides the first two clauses, and a complete operation leaves what follows it unread. -/
theorem recordsThatAreNoCallAreRejectedByName : Obligations.RecordsThatAreNoCallAreRejectedByName := by
  unfold Obligations.RecordsThatAreNoCallAreRejectedByName
  refine ⟨fun b bs hlow hhigh => ?_, fun b bs hhigh => ?_, rfl, fun i b bs => ?_⟩
  · rw [decodeRecord, decodeCall_reservedOrdinal hlow hhigh]
  · rw [decodeRecord, decodeCall_reservedBits hhigh]
  · rw [decodeRecord, decodeCall_encode]

/-- Settles O7: the decoder run on each of the table's words and on two records. -/
theorem tableWordsDecodeToTheirOperations : Obligations.TableWordsDecodeToTheirOperations := by
  unfold Obligations.TableWordsDecodeToTheirOperations
  decide

end Sys2Proof

/-! SUPPORT. What an operation may change: the content operations the bitmaps, `SCRATCH`, the result and the count of draws, as a
function of those and the parameters (40_display_state.md R100, 42_encoder.md R140); the engine operations the rest (R22). -/

namespace Sys2Proof.Machine

section

variable {i : Instr} {s t u : State}

/-! ### The content of a state -/

/-- The state with the bitmaps, `SCRATCH`, result and count of draws of another: all that a content operation writes. -/
def State.withContent (u s : State) : State := { u with bm := s.bm, scratch := s.scratch, ret := s.ret, draws := s.draws }

@[simp] theorem State.withContent_cfg (u s : State) : (u.withContent s).cfg = u.cfg := rfl
@[simp] theorem State.withContent_returns (u s : State) (r : Result) : (u.withContent s).returns r = u.withContent (s.returns r) := rfl
@[simp] theorem State.withContent_self (s : State) : s.withContent s = s := rfl

theorem State.withContent_inRange (h : u.cfg = s.cfg) (p : Nat) : (u.withContent s).inRange p ↔ s.inRange p := by
  simp [State.inRange, h]

theorem State.withContent_store (h : u.cfg = s.cfg) (p : Nat) (v : Byte) :
    (u.withContent s).store p v = u.withContent (s.store p v) := by
  simp only [State.store, State.withContent_inRange h]
  split <;> rfl

theorem State.withContent_memWrite (h : u.cfg = s.cfg) (p : Nat) (v : Byte) :
    (u.withContent s).memWrite p v = u.withContent (s.memWrite p v) := by
  simp only [State.memWrite, State.withContent_inRange h]
  split <;> rfl

theorem State.withContent_memRead (h : u.cfg = s.cfg) (p : Nat) :
    (u.withContent s).memRead p = ((s.memRead p).1, u.withContent (s.memRead p).2) := by
  simp only [State.memRead, State.withContent_inRange h]
  split <;> rfl

theorem displayUnits_withContent (h : u.cfg = s.cfg) (n : Nat) (j : DisplayJob) :
    displayUnits n j (u.withContent s) = ((displayUnits n j s).1, u.withContent (displayUnits n j s).2) := by
  obtain ⟨hjob, hbm⟩ := displayUnits_congr n j (s := s) (t := u.withContent s) h rfl
  refine Prod.ext hjob ?_
  rw [displayUnits_eq n j s, displayUnits_eq n j (u.withContent s), hbm]
  rfl

/-- A content operation is a function of the parameters and the content: at another state with the same it does the same, and leaves
the rest of that state as it was (R100, R140). -/
theorem exec_withContent (hi : i.isContent = true) (h : u.cfg = s.cfg) :
    exec i (u.withContent s) = mapNext u.withContent (exec i s) := by
  cases i with
  | read pos =>
    simp only [exec, execRead, State.inRange, State.withContent_cfg, h]
    split <;> rfl
  | write pos v => simp [exec, execWrite, mapNext, State.withContent_store h]
  | daRead pos => simp [exec, execDaRead, mapNext, State.withContent_memRead h]
  | daWrite pos v => simp [exec, execDaWrite, mapNext, State.withContent_memWrite h]
  | digitToBitmap value point =>
    simp only [exec, execDigitToBitmap, State.withContent_cfg, h]
    cases bitmapOf s.cfg value point <;> rfl
  | valueToDisplay value radix zeros dpPos =>
    have hjob : displayJob value radix zeros dpPos (u.withContent s) = displayJob value radix zeros dpPos s := by
      simp [displayJob, h]
    simp only [exec, execValueToDisplay, hjob, State.withContent_cfg, h, displayUnits_withContent h]
    split <;> rfl
  | initializeEngine _ _ _ => cases hi
  | advanceToDigit _ => cases hi
  | advance => cases hi
  | setBlank _ => cases hi
  | isBlank => cases hi

/-- A content operation that completes changes the content only. -/
theorem exec_content_frame (hi : i.isContent = true) (h : exec i s = .next t) : t = s.withContent t := by
  have hself := exec_withContent (u := s) (s := s) hi rfl
  rw [State.withContent_self, h] at hself
  exact Host.Outcome.next.inj hself

/-- Settles O39: the frame of the content operations, which is their being functions of the content. -/
theorem contentOperationsTouchOnlyBitmaps : Obligations.ContentOperationsTouchOnlyBitmaps := by
  unfold Obligations.ContentOperationsTouchOnlyBitmaps
  intro s t i hi h
  exact exec_content_frame hi h

/-! ### The engine operations -/

/-- An engine operation that completes is `initialize` past its gate, or in a ready state a transition or `isBlank`. -/
theorem exec_engine_cases (hi : i.isContent = false) (h : exec i s = .next t) :
    (∃ dp sp b, i = .initializeEngine dp sp b ∧ s.busy = false ∧ s.init = false ∧ PinMapLegal s.cfg dp sp ∧
      t = s.initialized dp sp b) ∨
    (s.ready ∧ ∃ r target, t = (s.moveTo target).returns r) ∨
    (s.ready ∧ ∃ r, t = s.returns r) := by
  cases i with
  | initializeEngine dp sp b =>
    obtain ⟨hbusy, hinit, hpins, rfl⟩ := execInitialize_cases s h
    exact .inl ⟨dp, sp, b, rfl, hbusy, hinit, hpins, rfl⟩
  | advanceToDigit target =>
    obtain ⟨hready, rfl⟩ := execAdvanceToDigit_cases s h
    exact .inr (.inl ⟨hready, _, _, rfl⟩)
  | advance =>
    obtain ⟨hready, rfl⟩ := execAdvance_cases s h
    exact .inr (.inl ⟨hready, _, _, rfl⟩)
  | setBlank flag =>
    obtain ⟨hready, rfl⟩ := execSetBlank_cases s h
    exact .inr (.inl ⟨hready, _, _, rfl⟩)
  | isBlank =>
    obtain ⟨hready, rfl⟩ := execIsBlank_cases s h
    exact .inr (.inr ⟨hready, _, rfl⟩)
  | read _ => cases hi
  | write _ _ => cases hi
  | daRead _ => cases hi
  | daWrite _ _ => cases hi
  | digitToBitmap _ _ => cases hi
  | valueToDisplay _ _ _ _ => cases hi

/-- The state with the PinMap, `CUR`, `INIT`, latches, trace and result of another: all that an engine operation writes. -/
def State.withEngine (s t : State) : State :=
  { s with dpin := t.dpin, spin := t.spin, cur := t.cur, init := t.init, dir := t.dir, lvl := t.lvl, trace := t.trace, ret := t.ret }

/-- An engine operation that completes changes no content, parameter, context or `BUSY` (R22). -/
theorem exec_engine_frame (hi : i.isContent = false) (h : exec i s = .next t) : t = s.withEngine t := by
  obtain ⟨dp, sp, b, -, -, -, -, rfl⟩ | ⟨-, r, target, rfl⟩ | ⟨-, r, rfl⟩ := exec_engine_cases hi h
  · rw [State.initialized_eq]
    rfl
  · rw [State.moveTo_returns_eq]
    simp [State.withEngine]
  · rfl

/-- Settles O40: the frame of the engine operations; once initialised only transitions and `isBlank` complete. -/
theorem engineOperationsTouchOnlyCurrentDigitAndPins : Obligations.EngineOperationsTouchOnlyCurrentDigitAndPins := by
  unfold Obligations.EngineOperationsTouchOnlyCurrentDigitAndPins
  intro s t i hi h
  refine ⟨exec_engine_frame hi h, fun hinit => ?_⟩
  obtain ⟨dp, sp, b, -, -, hnot, -, -⟩ | ⟨-, r, target, rfl⟩ | ⟨-, r, rfl⟩ := exec_engine_cases hi h
  · exact absurd hinit (by simp [hnot])
  · simp [hinit]
  · simp [hinit]

/-! ### Both -/

/-- No operation writes the parameters, `BUSY`, a context or the schedule. -/
theorem exec_keeps (h : exec i s = .next t) :
    t.cfg = s.cfg ∧ t.busy = s.busy ∧ t.main = s.main ∧ t.tick = s.tick ∧ t.turns = s.turns := by
  cases hi : i.isContent with
  | true => rw [exec_content_frame hi h]; exact ⟨rfl, rfl, rfl, rfl, rfl⟩
  | false => rw [exec_engine_frame hi h]; exact ⟨rfl, rfl, rfl, rfl, rfl⟩

theorem exec_cfg (h : exec i s = .next t) : t.cfg = s.cfg := (exec_keeps h).1
theorem exec_busy (h : exec i s = .next t) : t.busy = s.busy := (exec_keeps h).2.1

theorem exec_context (h : exec i s = .next t) (a : Agent) : t.context a = s.context a := by
  obtain ⟨-, -, hmain, htick, -⟩ := exec_keeps h
  cases a
  · exact hmain
  · exact htick

theorem exec_engine_bm (hi : i.isContent = false) (h : exec i s = .next t) : t.bm = s.bm := by
  rw [exec_engine_frame hi h]
  rfl

/-- A digit above 15 is neither suppressed nor converted (R150). -/
theorem cellBitmap_of_rejected {d : Nat} (h : 15 < d) (p : Params) (pos rest : Nat) (zeros : Bool) (dpPos : Option Nat) :
    cellBitmap p pos d rest zeros dpPos = none := by
  have hne : d ≠ 0 := by omega
  simp [cellBitmap, suppressed, hne, bitmapOf, h]

/-- A cell out of range, or whose digit is above 15, is not written by `valueToDisplay` (R102, R150). -/
theorem execValueToDisplay_cell_kept {value radix p : Nat} {zeros : Bool} {dpPos : Option Nat}
    (h : execValueToDisplay value radix zeros dpPos s = .next t)
    (hp : s.cfg.digits ≤ p ∨ 15 < digitOf s.cfg.digits value radix p) : t.cell p = s.cell p := by
  obtain ⟨-, -, hcells⟩ := execValueToDisplay_cases h
  rw [hcells]
  rcases hp with hp | hp
  · rw [if_neg (Nat.not_lt.mpr hp)]
  · rw [cellBitmap_of_rejected hp, Option.getD_none, ite_self]

/-- Settles O41: the three storing operations by what they do to each cell, the other content operations by their definition, the
engine operations by their frame. -/
theorem cellsChangeOnlyWhereAnOperationStores : Obligations.CellsChangeOnlyWhereAnOperationStores := by
  unfold Obligations.CellsChangeOnlyWhereAnOperationStores
  intro s t i a h hkept
  have engine : i.isContent = false → t.cell a = s.cell a := fun hi => by
    rw [State.cell, State.cell, exec_engine_bm hi h]
  cases i with
  | read pos =>
    simp only [exec, execRead] at h
    split at h <;> cases h
    rfl
  | write pos v =>
    cases h
    refine (s.cell_store pos a v).trans (if_neg fun hit => ?_)
    exact hkept.elim (fun hne => hne hit.1) (fun hout => Nat.not_lt.mpr hout hit.2)
  | daRead pos =>
    cases h
    simp [State.cell]
  | daWrite pos v =>
    cases h
    refine (s.cell_memWrite pos a v).trans (if_neg fun hit => ?_)
    exact hkept.elim (fun hne => hne hit.1) (fun hout => Nat.not_lt.mpr hout hit.2)
  | digitToBitmap value point =>
    simp only [exec, execDigitToBitmap] at h
    split at h <;> cases h <;> rfl
  | valueToDisplay value radix zeros dpPos => exact execValueToDisplay_cell_kept h hkept
  | initializeEngine _ _ _ => exact engine rfl
  | advanceToDigit _ => exact engine rfl
  | advance => exact engine rfl
  | setBlank _ => exact engine rfl
  | isBlank => exact engine rfl

/-- Settles O30: content operations keep `CUR` by their frame, and a transition ends in the state of its target. -/
theorem currentDigitAfterEveryOperation : Obligations.CurrentDigitAfterEveryOperation := by
  unfold Obligations.CurrentDigitAfterEveryOperation
  intro s t i h
  have content : i.isContent = true → t.cur = s.cur := fun hi => by
    rw [exec_content_frame hi h]
    rfl
  cases i with
  | initializeEngine dp sp b =>
    obtain ⟨-, -, -, rfl⟩ := execInitialize_cases s h
    rfl
  | advanceToDigit target =>
    obtain ⟨-, rfl⟩ := execAdvanceToDigit_cases s h
    rfl
  | advance =>
    obtain ⟨-, rfl⟩ := execAdvance_cases s h
    cases hcur : s.cur with
    | blanked => simp [State.advanceTarget, hcur]
    | showing d => simp [State.advanceTarget, hcur, State.targetState, State.inRange]
  | setBlank flag =>
    obtain ⟨-, rfl⟩ := execSetBlank_cases s h
    cases flag with
    | true => simp
    | false => simp [State.targetState, State.inRange]
  | isBlank =>
    obtain ⟨-, rfl⟩ := execIsBlank_cases s h
    rfl
  | read _ => exact content rfl
  | write _ _ => exact content rfl
  | daRead _ => exact content rfl
  | daWrite _ _ => exact content rfl
  | digitToBitmap _ _ => exact content rfl
  | valueToDisplay _ _ _ _ => exact content rfl

end

end Sys2Proof.Machine

/-! SUPPORT. What a step keeps. The invariant `Consistent` is taken apart into what it says of the hardware and what it says of the
calls in flight: a step runs at most one operation on the hardware, and moves one context. -/

namespace Sys2Proof.Machine

section

variable {i : Instr} {s t u : State} {a : Agent} {g : Grain} {j : DisplayJob} {tn : Turn}

/-! ### The part of the state that content operations and turns leave alone -/

/-- Parameters, `CUR`, PinMap, `INIT`, latches and trace are the same. -/
structure SameEngine (s t : State) : Prop where
  cfg : t.cfg = s.cfg
  cur : t.cur = s.cur
  dpin : t.dpin = s.dpin
  spin : t.spin = s.spin
  init : t.init = s.init
  dir : t.dir = s.dir
  lvl : t.lvl = s.lvl
  trace : t.trace = s.trace

theorem sameEngine_setFlight (s : State) (a : Agent) (f : Option Flight) : SameEngine s (s.setFlight a f) := by
  constructor <;> simp

theorem sameEngine_popCall (s : State) (a : Agent) (calls : List (List Byte)) : SameEngine s (s.popCall a calls) := by
  constructor <;> simp

theorem SameEngine.trans (h : SameEngine s t) (h' : SameEngine t u) : SameEngine s u where
  cfg := h'.cfg.trans h.cfg
  cur := h'.cur.trans h.cur
  dpin := h'.dpin.trans h.dpin
  spin := h'.spin.trans h.spin
  init := h'.init.trans h.init
  dir := h'.dir.trans h.dir
  lvl := h'.lvl.trans h.lvl
  trace := h'.trace.trans h.trace

theorem exec_content_sameEngine (hi : i.isContent = true) (h : exec i s = .next t) : SameEngine s t := by
  rw [exec_content_frame hi h]
  constructor <;> rfl

theorem sameEngine_runDisplay (a : Agent) (g : Grain) (j : DisplayJob) (s : State) : SameEngine s (runDisplay a g j s) := by
  rw [runDisplay_eq]
  constructor <;> rfl

/-- Another `BUSY`, which a turn sets and clears (R32). -/
def State.withBusy (s : State) (b : Bool) : State := { s with busy := b }

/-- Another schedule, of which a step uses up a turn. -/
def State.withTurns (s : State) (turns : List Turn) : State := { s with turns := turns }

@[simp] theorem State.withBusy_cfg (s : State) (b : Bool) : (s.withBusy b).cfg = s.cfg := rfl
@[simp] theorem State.withBusy_bm (s : State) (b : Bool) : (s.withBusy b).bm = s.bm := rfl
@[simp] theorem State.withBusy_init (s : State) (b : Bool) : (s.withBusy b).init = s.init := rfl
@[simp] theorem State.withBusy_busy (s : State) (b : Bool) : (s.withBusy b).busy = b := rfl
@[simp] theorem State.withTurns_cfg (s : State) (turns : List Turn) : (s.withTurns turns).cfg = s.cfg := rfl
@[simp] theorem State.withTurns_bm (s : State) (turns : List Turn) : (s.withTurns turns).bm = s.bm := rfl
@[simp] theorem State.withTurns_init (s : State) (turns : List Turn) : (s.withTurns turns).init = s.init := rfl
@[simp] theorem State.withTurns_busy (s : State) (turns : List Turn) : (s.withTurns turns).busy = s.busy := rfl
@[simp] theorem State.withBusy_turns (s : State) (b : Bool) : (s.withBusy b).turns = s.turns := rfl
@[simp] theorem State.withTurns_turns (s : State) (turns : List Turn) : (s.withTurns turns).turns = turns := rfl

theorem sameEngine_withBusy (s : State) (b : Bool) : SameEngine s (s.withBusy b) := by
  constructor <;> rfl

theorem sameEngine_withTurns (s : State) (turns : List Turn) : SameEngine s (s.withTurns turns) := by
  constructor <;> rfl

/-! ### The canonical form of the bitmaps -/

/-- The bitmaps are in canonical form and inside `0 .. N-1` (R50). -/
def State.CellsCanonical (s : State) : Prop := s.bm.wf ∧ ∀ c ∈ s.bm, c.1 < s.cfg.digits

theorem State.CellsCanonical.of_eq (h : s.CellsCanonical) (hcfg : t.cfg = s.cfg) (hbm : t.bm = s.bm) : t.CellsCanonical := by
  rw [State.CellsCanonical, hcfg, hbm]
  exact h

theorem State.CellsCanonical.displayUnits (h : s.CellsCanonical) (n : Nat) (j : DisplayJob) :
    (displayUnits n j s).2.CellsCanonical := by
  have hcfg : (Machine.displayUnits n j s).2.cfg = s.cfg := by rw [displayUnits_eq]
  rw [State.CellsCanonical, hcfg]
  exact displayUnits_wf n j s h.1 h.2

/-- A run of units stores what `displayUnits` stores. -/
theorem runDisplay_bm (a : Agent) (g : Grain) (j : DisplayJob) (s : State) :
    (runDisplay a g j s).bm = (displayUnits (unitsOf g j.left) j s).2.bm := by
  simp only [runDisplay]
  split <;> simp

theorem State.CellsCanonical.runDisplay (h : s.CellsCanonical) (a : Agent) (g : Grain) (j : DisplayJob) :
    (runDisplay a g j s).CellsCanonical := by
  refine (h.displayUnits (unitsOf g j.left) j).of_eq ?_ (runDisplay_bm a g j s)
  rw [(sameEngine_runDisplay a g j s).cfg, displayUnits_eq]

theorem State.CellsCanonical.exec (h : s.CellsCanonical) (he : exec i s = .next t) : t.CellsCanonical := by
  have hcfg := exec_cfg he
  have engine : i.isContent = false → t.CellsCanonical := fun hi => h.of_eq hcfg (exec_engine_bm hi he)
  cases i with
  | read pos =>
    simp only [Machine.exec, execRead] at he
    split at he <;> cases he
    exact h
  | write pos v =>
    cases he
    exact State.CellsCanonical.of_eq (s := s.store pos v)
      ⟨s.store_wf h.1 pos v, by simpa using s.store_positions h.2 pos v⟩ rfl rfl
  | daRead pos =>
    cases he
    exact h.of_eq hcfg (by simp)
  | daWrite pos v =>
    cases he
    exact State.CellsCanonical.of_eq (s := s.memWrite pos v)
      ⟨s.memWrite_wf h.1 pos v, by simpa using s.memWrite_positions h.2 pos v⟩ rfl rfl
  | digitToBitmap value point =>
    simp only [Machine.exec, execDigitToBitmap] at he
    split at he <;> cases he <;> exact h
  | valueToDisplay value radix zeros dpPos =>
    simp only [Machine.exec, execValueToDisplay] at he
    split at he
    · cases he
    · cases he
      exact h.displayUnits _ _
  | initializeEngine _ _ _ => exact engine rfl
  | advanceToDigit _ => exact engine rfl
  | advance => exact engine rfl
  | setBlank _ => exact engine rfl
  | isBlank => exact engine rfl

/-! ### What a step does to the hardware -/

/-- A step is a turn at the state with that turn used up. -/
theorem step_eq_takeTurn (s : State) : ∃ tn turns, step s = takeTurn tn (s.withTurns turns) := by
  cases hturns : s.turns with
  | nil =>
    have hself : s.withTurns [] = s := by rw [← hturns]; rfl
    exact ⟨s.defaultTurn, [], by rw [hself, step, nextTurn, hturns]⟩
  | cons tn turns => exact ⟨tn, turns, by rw [step, nextTurn, hturns]; rfl⟩

/-- A step that answers a next state leaves the engine alone, storing at most some display units, or is one operation run on the
hardware as it was. -/
theorem step_cases (h : step s = .next t) :
    (SameEngine s t ∧ (s.CellsCanonical → t.CellsCanonical)) ∨
    ∃ i u, SameEngine s u ∧ u.bm = s.bm ∧ exec i u = .next t := by
  obtain ⟨tn, turns, hstep⟩ := step_eq_takeTurn s
  rw [hstep] at h
  have hsame := sameEngine_withTurns s turns
  generalize hu : s.withTurns turns = u at h hsame
  have hbm : u.bm = s.bm := by rw [← hu]; rfl
  have hcells : s.CellsCanonical → u.CellsCanonical := fun hs => hs.of_eq hsame.cfg hbm
  obtain ⟨j, -, rfl⟩ | ⟨i, -, h⟩ | ⟨-, -, rfl⟩ | ⟨record, calls, i, -, -, -, ⟨-, h⟩ | ⟨-, h⟩⟩ := takeTurn_cases h
  · exact .inl ⟨hsame.trans (sameEngine_runDisplay _ _ _ _), fun hs => (hcells hs).runDisplay _ _ _⟩
  · exact .inr ⟨i, _, (hsame.trans (sameEngine_setFlight u _ _)).trans (sameEngine_withBusy _ _), by simpa using hbm, h⟩
  · exact .inl ⟨hsame, hcells⟩
  · exact .inr ⟨i, _, hsame.trans (sameEngine_popCall _ _ _), by simpa using hbm, h⟩
  · have hpop := hsame.trans (sameEngine_popCall u tn.agent calls)
    have hpopBm : (u.popCall tn.agent calls).bm = s.bm := by simpa using hbm
    obtain h | ⟨-, -, rfl⟩ | ⟨value, radix, zeros, dpPos, -, -, rfl⟩ := beginCall_cases h
    · exact .inr ⟨i, _, hpop, hpopBm, h⟩
    · exact .inl ⟨(hpop.trans (sameEngine_setFlight _ _ _)).trans (sameEngine_withBusy _ _),
        fun hs => (hs.of_eq hpop.cfg hpopBm).of_eq (by simp) (by simp)⟩
    · exact .inl ⟨hpop.trans (sameEngine_runDisplay _ _ _ _), fun hs => (hs.of_eq hpop.cfg hpopBm).runDisplay _ _ _⟩

/-! ### The configuration -/

/-- Parameters are kept, the trace is appended to, and once initialised an instance stays so with its PinMap (R29, R31, R36). -/
def KeepsConfiguration (s t : State) : Prop :=
  t.cfg = s.cfg ∧ (∃ es, t.trace = s.trace ++ es) ∧ (s.init = true → t.init = true ∧ t.dpin = s.dpin ∧ t.spin = s.spin)

theorem SameEngine.keepsConfiguration (h : SameEngine s t) : KeepsConfiguration s t :=
  ⟨h.cfg, ⟨[], by simp [h.trace]⟩, fun hinit => ⟨h.init.trans hinit, h.dpin, h.spin⟩⟩

theorem exec_keepsConfiguration (h : exec i s = .next t) : KeepsConfiguration s t := by
  cases hi : i.isContent with
  | true => exact (exec_content_sameEngine hi h).keepsConfiguration
  | false =>
    obtain ⟨dp, sp, b, -, -, hnot, -, rfl⟩ | ⟨-, r, target, rfl⟩ | ⟨-, r, rfl⟩ := exec_engine_cases hi h
    · exact ⟨State.emitAll_cfg _ _, ⟨_, State.emitAll_trace _ _⟩, fun hinit => absurd hinit (by simp [hnot])⟩
    · exact ⟨s.moveTo_cfg target, ⟨_, s.moveTo_trace target⟩, fun hinit => ⟨by simpa using hinit, by simp, by simp⟩⟩
    · exact ⟨rfl, ⟨[], by simp⟩, fun hinit => ⟨hinit, rfl, rfl⟩⟩

/-- Settles O42: a step leaves the engine alone or runs one operation, and every operation keeps the configuration. -/
theorem stepNeverChangesTheConfiguration : Obligations.StepNeverChangesTheConfiguration := by
  unfold Obligations.StepNeverChangesTheConfiguration
  intro s t h
  obtain ⟨hsame, -⟩ | ⟨i, u, hsame, -, he⟩ := step_cases h
  · exact hsame.keepsConfiguration
  · have hu : KeepsConfiguration u t := exec_keepsConfiguration he
    rwa [KeepsConfiguration, hsame.cfg, hsame.trace, hsame.init, hsame.dpin, hsame.spin] at hu

/-! ### Consistency of the hardware -/

/-- What `Consistent` says of parameters, bitmaps, `CUR`, PinMap, latches and trace. -/
structure HardwareConsistent (s : State) : Prop where
  params : s.cfg.admissible = true
  cells : s.CellsCanonical
  current : s.cur.legal s.cfg.digits = true
  directions : s.dir = directionsAfter s.trace
  levels : s.lvl = levelsAfter s.trace
  unset : s.init = false → s.dpin = [] ∧ s.spin = [] ∧ s.trace = []
  pinMap : s.init = true → PinMapLegal s.cfg s.dpin s.spin
  history : s.init = true →
    s.trace.take s.initialEvents = initializeEvents s.cfg s.dpin s.spin ∧
      ∀ e ∈ s.trace.drop s.initialEvents, e.setsLevelIn (s.dpin ++ s.spin) = true

theorem Consistent.hardware (h : Consistent s) : HardwareConsistent s where
  params := h.params
  cells := ⟨h.cells, h.positions⟩
  current := h.current
  directions := h.directions
  levels := h.levels
  unset := h.unset
  pinMap := h.pinMap
  history := h.history

theorem SameEngine.hardwareConsistent (same : SameEngine s t) (h : HardwareConsistent s) (hcells : t.CellsCanonical) :
    HardwareConsistent t := by
  obtain ⟨hparams, -, hcurrent, hdirections, hlevels, hunset, hpins, hhistory⟩ := h
  constructor <;> simpa only [same.cfg, same.cur, same.dpin, same.spin, same.init, same.dir, same.lvl, same.trace,
    State.initialEvents]

theorem Params.digits_pos {p : Params} (h : p.admissible = true) : 0 < p.digits := by
  simp only [Params.admissible, Bool.and_eq_true, decide_eq_true_eq] at h
  obtain ⟨⟨⟨⟨hpos, -⟩, -⟩, -⟩, -⟩ := h
  exact hpos

theorem State.initialized_trace (s : State) (dp sp : List PinId) (b : Bool) :
    (s.initialized dp sp b).trace = s.trace ++ initializeEvents s.cfg dp sp := State.emitAll_trace _ _

/-- The first events of an initialised instance are those of `initialize`; its trace is at least that long. -/
theorem HardwareConsistent.initialEvents_le (h : HardwareConsistent s) (hinit : s.init = true) :
    s.initialEvents ≤ s.trace.length := by
  have hlength := congrArg List.length (h.history hinit).1
  rw [initializeEvents_length (h.pinMap hinit), List.length_take] at hlength
  exact min_eq_left_iff.mp hlength

theorem HardwareConsistent.initialized (h : HardwareConsistent s) (hinit : s.init = false) {dp sp : List PinId}
    (hpins : PinMapLegal s.cfg dp sp) (b : Bool) : HardwareConsistent (s.initialized dp sp b) := by
  obtain ⟨-, -, htrace⟩ := h.unset hinit
  have htraceAfter : (s.initialized dp sp b).trace = initializeEvents s.cfg dp sp := by
    rw [State.initialized_trace, htrace, List.nil_append]
  have hcount : (s.initialized dp sp b).initialEvents = (initializeEvents s.cfg dp sp).length := by
    rw [initializeEvents_length hpins, State.initialEvents, State.initialized_cfg]
  constructor
  case params => simpa using h.params
  case cells => exact h.cells.of_eq (s.initialized_cfg dp sp b) (s.initialized_bm dp sp b)
  case current =>
    cases b with
    | true => rfl
    | false => simpa [State.initialized, Cur.legal] using Params.digits_pos h.params
  case directions => exact s.emitAll_directionsAfter h.directions _
  case levels => exact s.emitAll_levelsAfter h.levels _
  case unset => exact fun hnot => absurd hnot (by simp [State.initialized])
  case pinMap => exact fun _ => by simpa using hpins
  case history =>
    intro _
    rw [htraceAfter, hcount, List.take_length, List.drop_length]
    exact ⟨by simp, by simp⟩

theorem HardwareConsistent.moveTo (h : HardwareConsistent s) (hinit : s.init = true) (target : Nat) (r : Result) :
    HardwareConsistent ((s.moveTo target).returns r) := by
  obtain ⟨hfirst, hlater⟩ := h.history hinit
  have hle := h.initialEvents_le hinit
  have hcount : ((s.moveTo target).returns r).initialEvents = s.initialEvents := by simp [State.initialEvents]
  constructor
  case params => simpa using h.params
  case cells => exact h.cells.of_eq (by simp) (by simp)
  case current => simpa using s.targetState_legal target
  case directions => exact s.emitAll_directionsAfter h.directions _
  case levels => exact s.emitAll_levelsAfter h.levels _
  case unset => exact fun hnot => absurd hinit (by simpa using hnot)
  case pinMap => exact fun _ => by simpa using h.pinMap hinit
  case history =>
    intro _
    rw [hcount]
    simp only [State.returns_trace, State.moveTo_trace, State.returns_cfg, State.moveTo_cfg, State.returns_dpin, State.moveTo_dpin,
      State.returns_spin, State.moveTo_spin, List.take_append_of_le_length hle, List.drop_append_of_le_length hle]
    refine ⟨hfirst, fun e he => ?_⟩
    rcases List.mem_append.mp he with he | he
    · exact hlater e he
    · exact s.transitionEvents_setsLevelIn he

theorem HardwareConsistent.exec (h : HardwareConsistent s) (he : exec i s = .next t) : HardwareConsistent t := by
  have hcells := h.cells.exec he
  cases hi : i.isContent with
  | true => exact (exec_content_sameEngine hi he).hardwareConsistent h hcells
  | false =>
    obtain ⟨dp, sp, b, -, -, hinit, hpins, rfl⟩ | ⟨hready, r, target, rfl⟩ | ⟨-, r, rfl⟩ := exec_engine_cases hi he
    · exact h.initialized hinit hpins b
    · exact h.moveTo hready.1 target r
    · exact SameEngine.hardwareConsistent (by constructor <;> rfl) h hcells

theorem HardwareConsistent.step (h : HardwareConsistent s) (hstep : step s = .next t) : HardwareConsistent t := by
  obtain ⟨hsame, hcells⟩ | ⟨i, u, hsame, hbm, he⟩ := step_cases hstep
  · exact hsame.hardwareConsistent h (hcells h.cells)
  · exact (hsame.hardwareConsistent h (h.cells.of_eq hsame.cfg hbm)).exec he

/-! ### The contexts under the updates of a turn -/

/-- The context whose turn it is not. -/
def Agent.other : Agent → Agent
  | .main => .tick
  | .tick => .main

theorem State.context_setContext_other (s : State) (a : Agent) (c : Context) :
    (s.setContext a c).context a.other = s.context a.other := by
  cases a <;> rfl

@[simp] theorem State.context_withBusy (s : State) (b : Bool) (a : Agent) : (s.withBusy b).context a = s.context a := by
  cases a <;> rfl

@[simp] theorem State.context_withTurns (s : State) (turns : List Turn) (a : Agent) :
    (s.withTurns turns).context a = s.context a := by
  cases a <;> rfl

@[simp] theorem State.context_setFlight (s : State) (a : Agent) (f : Option Flight) :
    (s.setFlight a f).context a = { calls := (s.context a).calls, flight := f } := State.context_setContext _ _ _

@[simp] theorem State.context_setFlight_other (s : State) (a : Agent) (f : Option Flight) :
    (s.setFlight a f).context a.other = s.context a.other := State.context_setContext_other _ _ _

@[simp] theorem State.context_popCall (s : State) (a : Agent) (calls : List (List Byte)) :
    (s.popCall a calls).context a = { calls := calls, flight := none } := State.context_setContext _ _ _

@[simp] theorem State.context_popCall_other (s : State) (a : Agent) (calls : List (List Byte)) :
    (s.popCall a calls).context a.other = s.context a.other := State.context_setContext_other _ _ _

@[simp] theorem State.context_returns (s : State) (r : Result) (a : Agent) : (s.returns r).context a = s.context a := by
  cases a <;> rfl

theorem displayUnits_context (n : Nat) (j : DisplayJob) (s : State) (a : Agent) :
    (displayUnits n j s).2.context a = s.context a := by
  rw [displayUnits_eq]
  cases a <;> rfl

theorem runDisplay_context_other (a : Agent) (g : Grain) (j : DisplayJob) (s : State) :
    (runDisplay a g j s).context a.other = s.context a.other := by
  simp only [runDisplay]
  split <;> simp [displayUnits_context]

/-- A `valueToDisplay` that goes on leaves its context with itself in flight or with nothing. -/
theorem runDisplay_noEngine (a : Agent) (g : Grain) (j : DisplayJob) (s : State) :
    ((runDisplay a g j s).context a).engineInFlight = false := by
  simp only [runDisplay]
  split <;> simp [Context.engineInFlight]

/-! ### Consistency of the calls in flight -/

/-- What `Consistent` says of the calls in flight, said from the side of context `a`. -/
structure FlightsConsistent (a : Agent) (s : State) : Prop where
  busyMark : s.busy = ((s.context a).engineInFlight || (s.context a.other).engineInFlight)
  oneEngine : ((s.context a).engineInFlight && (s.context a.other).engineInFlight) = false
  admitted : s.flightAdmitted (s.context a) = true
  admittedOther : s.flightAdmitted (s.context a.other) = true

theorem Consistent.flights (h : Consistent s) (a : Agent) : FlightsConsistent a s := by
  obtain ⟨hmain, htick⟩ := h.admitted
  cases a with
  | main => exact ⟨h.busyMark, h.oneEngine, hmain, htick⟩
  | tick => exact ⟨h.busyMark.trans (Bool.or_comm _ _), (Bool.and_comm _ _).trans h.oneEngine, htick, hmain⟩

theorem HardwareConsistent.consistent (h : HardwareConsistent s) (hf : FlightsConsistent a s) : Consistent s where
  params := h.params
  cells := h.cells.1
  positions := h.cells.2
  current := h.current
  directions := h.directions
  levels := h.levels
  unset := h.unset
  pinMap := h.pinMap
  history := h.history
  busyMark := by
    cases a with
    | main => exact hf.busyMark
    | tick => exact hf.busyMark.trans (Bool.or_comm _ _)
  oneEngine := by
    cases a with
    | main => exact hf.oneEngine
    | tick => exact (Bool.and_comm _ _).trans hf.oneEngine
  admitted := by
    cases a with
    | main => exact ⟨hf.admitted, hf.admittedOther⟩
    | tick => exact ⟨hf.admittedOther, hf.admitted⟩

/-- Where `BUSY` is false no context has an engine operation in flight. -/
theorem FlightsConsistent.idle (h : FlightsConsistent a s) (hbusy : s.busy = false) :
    (s.context a).engineInFlight = false ∧ (s.context a.other).engineInFlight = false := by
  have hmark := h.busyMark
  rw [hbusy] at hmark
  simpa using hmark.symm

/-- No engine operation is in flight in either context. -/
theorem flightsConsistent_of_idle (hbusy : s.busy = false) (ha : (s.context a).engineInFlight = false)
    (hother : (s.context a.other).engineInFlight = false) : FlightsConsistent a s :=
  ⟨by rw [hbusy, ha, hother]; rfl, by rw [ha, hother]; rfl, State.flightAdmitted_of_noEngine ha,
    State.flightAdmitted_of_noEngine hother⟩

/-- Context `a` moves without an engine operation in flight before or after; the other context's flight stays admitted. -/
theorem FlightsConsistent.of_noEngine (h : FlightsConsistent a s) (hcfg : t.cfg = s.cfg) (hinit : t.init = s.init)
    (hbusy : t.busy = s.busy) (hother : t.context a.other = s.context a.other)
    (hbefore : (s.context a).engineInFlight = false) (hafter : (t.context a).engineInFlight = false) : FlightsConsistent a t where
  busyMark := by rw [hbusy, h.busyMark, hother, hbefore, hafter]
  oneEngine := by rw [hafter]; rfl
  admitted := State.flightAdmitted_of_noEngine hafter
  admittedOther := by rw [hother, State.flightAdmitted_congr hcfg hinit]; exact h.admittedOther

/-- Operations keep the contexts and `BUSY`. One that changes `INIT` finds no engine operation in flight, whose gate could change. -/
theorem FlightsConsistent.exec (h : FlightsConsistent a s) (he : exec i s = .next t) : FlightsConsistent a t := by
  have hcfg := exec_cfg he
  have hbusy := exec_busy he
  have hctx := exec_context he a
  have hother := exec_context he a.other
  cases hi : i.isContent with
  | true =>
    have hinit := (exec_content_sameEngine hi he).init
    exact ⟨by rw [hbusy, hctx, hother]; exact h.busyMark, by rw [hctx, hother]; exact h.oneEngine,
      by rw [hctx, State.flightAdmitted_congr hcfg hinit]; exact h.admitted,
      by rw [hother, State.flightAdmitted_congr hcfg hinit]; exact h.admittedOther⟩
  | false =>
    have hidle : s.busy = false := by
      obtain ⟨_, _, _, -, hbusy, -⟩ | ⟨hready, -⟩ | ⟨hready, -⟩ := exec_engine_cases hi he
      · exact hbusy
      · exact hready.2
      · exact hready.2
    obtain ⟨hnone, hnoneOther⟩ := h.idle hidle
    exact flightsConsistent_of_idle (hbusy.trans hidle) (by rw [hctx, hnone]) (by rw [hother, hnoneOther])

theorem Instr.isContent_of_holdsBusy (h : i.holdsBusy = true) : i.isContent = false := by
  cases i <;> simp [Instr.holdsBusy, Instr.isContent] at h ⊢

/-- An engine operation past its gate starts: it alone is in flight, and admitted. -/
theorem FlightsConsistent.begin (h : FlightsConsistent a s) (hi : i.holdsBusy = true) (hstop : s.startStop i = none) :
    FlightsConsistent a ((s.setFlight a (some (.engine i))).withBusy true) := by
  have hcontent := Instr.isContent_of_holdsBusy hi
  have hbusy := State.busy_of_startStop hcontent hstop
  obtain ⟨-, hother⟩ := h.idle hbusy
  have hgate : (((s.setFlight a (some (.engine i))).withBusy true).withBusy false).startStop i = none :=
    (State.startStop_congr (by simp) (by simp) (by simp [hbusy]) i).trans hstop
  constructor
  case busyMark => simp [Context.engineInFlight]
  case oneEngine => simp [hother]
  case admitted =>
    simp only [State.flightAdmitted, State.context_withBusy, State.context_setFlight, hi, Bool.true_and]
    exact Option.isNone_iff_eq_none.mpr hgate
  case admittedOther => exact State.flightAdmitted_of_noEngine (by simpa using hother)

/-- The engine operation that a context has in flight is taken off it: nothing is in flight then. -/
theorem FlightsConsistent.finish (h : FlightsConsistent a s) (hflight : (s.context a).engineInFlight = true) :
    FlightsConsistent a ((s.setFlight a none).withBusy false) := by
  have hone := h.oneEngine
  rw [hflight, Bool.true_and] at hone
  exact flightsConsistent_of_idle rfl (by simp [Context.engineInFlight]) (by simpa using hone)

theorem FlightsConsistent.withTurns (h : FlightsConsistent a s) (turns : List Turn) : FlightsConsistent a (s.withTurns turns) where
  busyMark := by simpa using h.busyMark
  oneEngine := by simpa using h.oneEngine
  admitted := by
    rw [State.context_withTurns]
    exact (State.flightAdmitted_congr (s := s) rfl rfl _).trans h.admitted
  admittedOther := by
    rw [State.context_withTurns]
    exact (State.flightAdmitted_congr (s := s) rfl rfl _).trans h.admittedOther

theorem FlightsConsistent.takeTurn (h : FlightsConsistent tn.agent s) (ht : takeTurn tn s = .next t) :
    FlightsConsistent tn.agent t := by
  have running : ∀ {u : State} (g : Grain) (j : DisplayJob), FlightsConsistent tn.agent u →
      (u.context tn.agent).engineInFlight = false → FlightsConsistent tn.agent (runDisplay tn.agent g j u) := fun {u} g j hu hnone =>
    hu.of_noEngine (sameEngine_runDisplay _ _ _ _).cfg (sameEngine_runDisplay _ _ _ _).init
      (by rw [runDisplay_eq]) (runDisplay_context_other _ _ _ _) hnone (runDisplay_noEngine _ _ _ _)
  obtain ⟨j, hflight, rfl⟩ | ⟨i, hflight, he⟩ | ⟨-, -, rfl⟩ | ⟨record, calls, i, hflight, -, -, hcall⟩ := takeTurn_cases ht
  · exact running _ _ h (by simp [Context.engineInFlight, hflight])
  · exact (h.finish (by simp [Context.engineInFlight, hflight])).exec he
  · exact h
  · have hpop : FlightsConsistent tn.agent (s.popCall tn.agent calls) :=
      h.of_noEngine (by simp) (by simp) (by simp) (by simp) (by simp [Context.engineInFlight, hflight])
        (by simp [Context.engineInFlight])
    obtain ⟨-, he⟩ | ⟨-, hbegin⟩ := hcall
    · exact hpop.exec he
    · obtain he | ⟨hholds, hstop, rfl⟩ | ⟨value, radix, zeros, dpPos, -, -, rfl⟩ := beginCall_cases hbegin
      · exact hpop.exec he
      · exact hpop.begin hholds hstop
      · exact running _ _ hpop (by simp [Context.engineInFlight])

/-! ### Both -/

/-- Every operation keeps a state consistent. -/
theorem Consistent.exec (h : Consistent s) (he : exec i s = .next t) : Consistent t :=
  (h.hardware.exec he).consistent ((h.flights .main).exec he)

/-- Settles O3: the hardware is changed by one operation at most, and the calls in flight by the moves of one context. -/
theorem stepKeepsTheStateConsistent : Obligations.StepKeepsTheStateConsistent := by
  unfold Obligations.StepKeepsTheStateConsistent
  intro s t h hstep
  obtain ⟨tn, turns, hturn⟩ := step_eq_takeTurn s
  have hflights := (h.flights tn.agent).withTurns turns
  exact (h.hardware.step hstep).consistent (hflights.takeTurn (hturn.symm.trans hstep))

end

end Sys2Proof.Machine

/-! SUPPORT. The digit lines through a transition (41_multiplex_engine.md R118, R120, R130, R131, R202): leaving, rewriting and entering,
one pin event at a time. -/

namespace Sys2Proof.Machine

section

variable {i : Instr} {s t u : State} {target c : Nat}

/-! ### Sets of energized lines -/

theorem State.energized_nodup (s : State) : s.energized.Nodup :=
  List.Nodup.filter _ List.nodup_range

theorem State.energized_eq_singleton (h : ∀ i, i ∈ s.energized ↔ i = c) : s.energized = [c] :=
  List.perm_singleton.mp ((List.perm_ext_iff_of_nodup s.energized_nodup (List.nodup_singleton c)).mpr (by simpa using h))

/-! ### The trace, event by event -/

/-- What `DigitLinesSafe` says of the trace (R37, R120, R130, R202), with the levels being what the trace leaves. -/
structure TraceSafe (s : State) : Prop where
  levels : s.lvl = levelsAfter s.trace
  oneDigit : ∀ k ≤ s.trace.length, s.initialEvents ≤ k → (s.energizedAt k).length ≤ 1
  noBleed : ∀ k < s.trace.length, s.initialEvents ≤ k → s.noBleedAt k = true

/-- After the whole trace the lines are as they are now. -/
theorem State.energizedAt_length (h : s.lvl = levelsAfter s.trace) : s.energizedAt s.trace.length = s.energized := by
  rw [State.energizedAt, List.take_length, ← h]
  rfl

theorem State.linesOn_emit (s : State) (e : PinEvent) (lvl : List (PinId × Level)) : (s.emit e).linesOn lvl = s.linesOn lvl := by
  cases e <;> rfl

theorem State.initialEvents_emit (s : State) (e : PinEvent) : (s.emit e).initialEvents = s.initialEvents := by
  cases e <;> rfl

theorem State.energizedAt_emit {k : Nat} (hk : k ≤ s.trace.length) (e : PinEvent) : (s.emit e).energizedAt k = s.energizedAt k := by
  rw [State.energizedAt, State.linesOn_emit, State.emit_trace, List.take_append_of_le_length hk]
  rfl

/-- One more event keeps the trace safe if it leaves one line on at most and, setting a segment line, finds none on. -/
theorem TraceSafe.emit (h : TraceSafe s) {e : PinEvent} (hone : (s.emit e).energized.length ≤ 1)
    (hdark : e.setsLevelIn s.spin = true → s.energized = []) : TraceSafe (s.emit e) := by
  have hlevels : (s.emit e).lvl = levelsAfter (s.emit e).trace := s.emitAll_levelsAfter h.levels [e]
  have hlength : (s.emit e).trace.length = s.trace.length + 1 := by simp
  refine ⟨hlevels, fun k hk hstart => ?_, fun k hk hstart => ?_⟩
  · rw [State.initialEvents_emit] at hstart
    rcases Nat.lt_or_ge s.trace.length k with hlast | hk'
    · obtain rfl : k = (s.emit e).trace.length := by omega
      rwa [State.energizedAt_length hlevels]
    · rw [State.energizedAt_emit hk']
      exact h.oneDigit k hk' hstart
  · rw [State.initialEvents_emit] at hstart
    rw [State.noBleedAt, State.energizedAt_emit (by omega), State.emit_spin, State.emit_trace]
    rcases Nat.lt_or_ge k s.trace.length with hk' | hlast
    · rw [List.getElem?_append_left hk']
      exact h.noBleed k hk' hstart
    · obtain rfl : k = s.trace.length := by omega
      rw [List.getElem?_concat_length, State.energizedAt_length h.levels]
      cases hsets : e.setsLevelIn s.spin with
      | false => simp [hsets]
      | true => simp [hdark hsets]

/-! ### Events look at the PinMap and the parameters only -/

theorem State.driveAll_emitAll (s : State) (es : List PinEvent) (b : Byte) : (s.emitAll es).driveAll b = s.driveAll b := by
  simp [State.driveAll, State.drive]

theorem State.enterEvents_emitAll (s : State) (es : List PinEvent) (target : Nat) :
    (s.emitAll es).enterEvents target = s.enterEvents target := by
  simp [State.enterEvents, State.energize, State.inRange]

theorem State.energize_eq {x : PinId} (h : s.dpin[c]? = some x) : s.energize c = [.setLevel x s.cfg.digitOn] := by
  rw [State.energize, h, Params.digitLevel_true]

theorem State.deenergize_eq {x : PinId} (h : s.dpin[c]? = some x) : s.deenergize c = [.setLevel x s.cfg.digitOff] := by
  rw [State.deenergize, h, Params.digitLevel_false]

/-- On a legal PinMap a digit line's event sets no segment line. -/
theorem PinMapLegal.digit_not_setsLevelIn (hpins : PinMapLegal s.cfg s.dpin s.spin) {x : PinId} (hx : s.dpin[c]? = some x) (l : Level) :
    (PinEvent.setLevel x l).setsLevelIn s.spin = false := by
  rw [PinEvent.setsLevelIn, List.contains_eq_mem, decide_eq_false_iff_not]
  intro hmem
  obtain ⟨k, hk⟩ := List.mem_iff_getElem?.mp hmem
  exact hpins.digit_ne_segment hx hk

/-! ### The three parts of a transition -/

/-- Leaving: the current digit's line, the only one that can be on, goes off. -/
theorem TraceSafe.leave (h : TraceSafe s) (hpins : PinMapLegal s.cfg s.dpin s.spin) (hlegal : s.cur.legal s.cfg.digits = true)
    (honly : ∀ i ∈ s.energized, s.cur = .showing i) :
    TraceSafe (s.emitAll s.leaveEvents) ∧ (s.emitAll s.leaveEvents).energized = [] := by
  cases hcur : s.cur with
  | blanked =>
    have hnone : s.energized = [] := List.eq_nil_iff_forall_not_mem.mpr fun i hi => by cases hcur.symm.trans (honly i hi)
    rw [State.leaveEvents, hcur]
    exact ⟨h, hnone⟩
  | showing c =>
    obtain ⟨x, hx⟩ := hpins.digit_exists (i := c) (by simpa [hcur, Cur.legal] using hlegal)
    have hnone : (s.emit (.setLevel x s.cfg.digitOff)).energized = [] := List.eq_nil_iff_forall_not_mem.mpr fun i hi => by
      obtain ⟨hon, hne⟩ := (State.mem_energized_off hpins hx i).mp hi
      cases hcur.symm.trans (honly i hon)
      exact hne rfl
    rw [State.leaveEvents, hcur]
    simp only [State.deenergize_eq hx, State.emitAll_cons, State.emitAll_nil]
    exact ⟨h.emit (by simp [hnone]) fun hset => absurd hset (by simp [hpins.digit_not_setsLevelIn hx]), hnone⟩

/-- Rewriting: segment lines are set while no digit line is on, and none goes on. -/
theorem TraceSafe.segments (h : TraceSafe u) (hpins : PinMapLegal u.cfg u.dpin u.spin) (hnone : u.energized = []) {es : List PinEvent}
    (hes : ∀ e ∈ es, ∃ (k : Nat) (x : PinId) (l : Level), u.spin[k]? = some x ∧ e = .setLevel x l) :
    TraceSafe (u.emitAll es) ∧ (u.emitAll es).energized = [] := by
  induction es generalizing u with
  | nil => exact ⟨h, hnone⟩
  | cons e es ih =>
    have hhead : ∀ e' ∈ [e], ∃ (k : Nat) (x : PinId) (l : Level), u.spin[k]? = some x ∧ e' = .setLevel x l := fun e' he' =>
      hes e' (by simp [List.mem_singleton.mp he'])
    have hafter : (u.emit e).energized = [] := List.eq_nil_iff_forall_not_mem.mpr fun i hi => by
      have hbefore := (State.mem_energized_emitAll_segments hpins hhead i).mp hi
      simp [hnone] at hbefore
    rw [State.emitAll_cons]
    exact ih (h.emit (by simp [hafter]) fun _ => hnone) (by simpa using hpins) hafter
      fun e' he' => by simpa using hes e' (List.mem_cons_of_mem _ he')

theorem TraceSafe.driveAll (h : TraceSafe u) (hpins : PinMapLegal u.cfg u.dpin u.spin) (hnone : u.energized = []) (b : Byte) :
    TraceSafe (u.emitAll (u.driveAll b)) ∧ (u.emitAll (u.driveAll b)).energized = [] :=
  h.segments hpins hnone fun e he => by
    obtain ⟨k, x, -, hx, rfl⟩ := u.mem_driveAll he
    exact ⟨k, x, _, hx, rfl⟩

theorem State.enterEvents_of_le (h : s.cfg.digits ≤ target) : s.enterEvents target = [] :=
  if_neg (Nat.not_lt.mpr h)

theorem State.enterEvents_of_lt (h : target < s.cfg.digits) : s.enterEvents target = s.energize target :=
  if_pos h

/-- Entering a digit whose line alone may be on: exactly its line is on. -/
theorem TraceSafe.enter (h : TraceSafe u) (hpins : PinMapLegal u.cfg u.dpin u.spin) (hlt : target < u.cfg.digits)
    (honly : ∀ i ∈ u.energized, i = target) :
    TraceSafe (u.emitAll (u.enterEvents target)) ∧ (u.emitAll (u.enterEvents target)).energized = [target] := by
  obtain ⟨x, hx⟩ := hpins.digit_exists hlt
  have hon : (u.emit (.setLevel x u.cfg.digitOn)).energized = [target] := State.energized_eq_singleton fun i => by
    rw [State.mem_energized_on hpins hx hlt]
    exact ⟨fun hi => hi.elim (honly i) id, .inr⟩
  simp only [State.enterEvents_of_lt hlt, State.energize_eq hx, State.emitAll_cons, State.emitAll_nil]
  exact ⟨h.emit (by simp [hon]) fun hset => absurd hset (by simp [hpins.digit_not_setsLevelIn hx]), hon⟩

/-! ### The whole transition -/

/-- What a transition leaves on: the line of an in-range target, and no line otherwise. -/
def State.targetLines (s : State) (target : Nat) : List Nat := if target < s.cfg.digits then [target] else []

theorem State.mem_targetLines {i : Nat} (h : i ∈ s.targetLines target) : s.targetState target = .showing i := by
  unfold State.targetLines at h
  split at h
  · rename_i hlt
    rw [List.mem_singleton.mp h, s.targetState_of_lt hlt]
  · cases h

/-- Entering, whatever the target. -/
theorem TraceSafe.enter_any (h : TraceSafe u) (hpins : PinMapLegal u.cfg u.dpin u.spin)
    (honly : ∀ i ∈ u.energized, i = target ∧ target < u.cfg.digits) :
    TraceSafe (u.emitAll (u.enterEvents target)) ∧ (u.emitAll (u.enterEvents target)).energized = u.targetLines target := by
  rcases Nat.lt_or_ge target u.cfg.digits with hlt | hle
  · rw [State.targetLines, if_pos hlt]
    exact h.enter hpins hlt fun i hi => (honly i hi).1
  · rw [State.targetLines, if_neg (Nat.not_lt.mpr hle), State.enterEvents_of_le hle]
    exact ⟨h, List.eq_nil_iff_forall_not_mem.mpr fun i hi => absurd (honly i hi).2 (Nat.not_lt.mpr hle)⟩

/-- A transition is safe at every one of its events, and leaves on the target's line only (R120, R130). -/
theorem TraceSafe.moveTo (h : TraceSafe s) (hpins : PinMapLegal s.cfg s.dpin s.spin) (hlegal : s.cur.legal s.cfg.digits = true)
    (honly : ∀ i ∈ s.energized, s.cur = .showing i) (target : Nat) :
    TraceSafe (s.moveTo target) ∧ (s.moveTo target).energized = s.targetLines target := by
  suffices hall : TraceSafe (s.emitAll (s.transitionEvents target)) ∧
      (s.emitAll (s.transitionEvents target)).energized = s.targetLines target from
    ⟨⟨hall.1.levels, hall.1.oneDigit, hall.1.noBleed⟩, hall.2⟩
  unfold State.transitionEvents
  split
  · rename_i hsame
    refine h.enter_any hpins fun i hi => ?_
    have hshown := hsame.symm.trans (honly i hi)
    unfold State.targetState at hshown
    split at hshown
    · rename_i hlt
      exact ⟨(Cur.showing.inj hshown).symm, hlt⟩
    · cases hshown
  · obtain ⟨hleave, hnone⟩ := h.leave hpins hlegal honly
    obtain ⟨hdrive, hdark⟩ := hleave.driveAll (by simpa using hpins) hnone (s.sample target)
    obtain ⟨henter, hon⟩ := hdrive.enter_any (target := target) (by simpa using hpins) (by simp [hdark])
    simp only [State.emitAll_append, State.driveAll_emitAll, State.enterEvents_emitAll] at henter hon ⊢
    exact ⟨henter, hon.trans (by simp [State.targetLines])⟩

/-! ### The invariant -/

/-- The fields that `SameEngine` does not name are all that may differ. -/
theorem SameEngine.eq (h : SameEngine s t) :
    t = { s with bm := t.bm, scratch := t.scratch, busy := t.busy, ret := t.ret, draws := t.draws, main := t.main, tick := t.tick,
                 turns := t.turns } := by
  rw [← h.cfg, ← h.cur, ← h.dpin, ← h.spin, ← h.init, ← h.dir, ← h.lvl, ← h.trace]

theorem SameEngine.digitLinesSafe (same : SameEngine s t) (h : DigitLinesSafe s) : DigitLinesSafe t := by
  rw [same.eq]
  exact ⟨h.current, h.oneDigit, h.noBleed, h.dark⟩

/-- What is safe from `initialize` on is safe right after it: its events are the whole trace, and they leave every line off. -/
theorem DigitLinesSafe.initialized (h : HardwareConsistent s) (hinit : s.init = false) {dp sp : List PinId}
    (hpins : PinMapLegal s.cfg dp sp) (b : Bool) : DigitLinesSafe (s.initialized dp sp b) := by
  have hafter := h.initialized hinit hpins b
  have hnone := s.energized_initialized b hpins
  have hlength : (s.initialized dp sp b).trace.length = (s.initialized dp sp b).initialEvents := by
    rw [State.initialized_trace, (h.unset hinit).2.2, List.nil_append, initializeEvents_length hpins, State.initialEvents,
      State.initialized_cfg]
  constructor
  case current =>
    intro _ i hi
    rw [hnone] at hi
    cases hi
  case oneDigit =>
    intro _ k hk hstart
    obtain rfl : k = (s.initialized dp sp b).trace.length := by omega
    rw [State.energizedAt_length hafter.levels, hnone]
    exact Nat.zero_le 1
  case noBleed =>
    intro _ k hk hstart
    omega
  case dark => exact fun _ _ => s.segmentImage_initialized b hpins

theorem HardwareConsistent.traceSafe (h : HardwareConsistent s) (hsafe : DigitLinesSafe s) (hinit : s.init = true) : TraceSafe s :=
  ⟨h.levels, hsafe.oneDigit hinit, hsafe.noBleed hinit⟩

theorem DigitLinesSafe.moveTo (hsafe : DigitLinesSafe s) (h : HardwareConsistent s) (hinit : s.init = true) (target : Nat) (r : Result) :
    DigitLinesSafe ((s.moveTo target).returns r) := by
  have hpins := h.pinMap hinit
  obtain ⟨htrace, hlines⟩ := (h.traceSafe hsafe hinit).moveTo hpins h.current (hsafe.current hinit) target
  constructor
  case current =>
    intro _ i hi
    exact State.mem_targetLines (hlines ▸ (hi : i ∈ (s.moveTo target).energized))
  case oneDigit => exact fun _ => htrace.oneDigit
  case noBleed => exact fun _ => htrace.noBleed
  case dark =>
    intro _ hblanked
    rcases Nat.lt_or_ge target s.cfg.digits with hlt | hle
    · cases (s.targetState_of_lt hlt).symm.trans hblanked
    · exact State.segmentImage_moveTo_of_le hpins (hsafe.dark hinit) hle

/-- Every operation keeps the digit lines safe. -/
theorem DigitLinesSafe.exec (hsafe : DigitLinesSafe s) (h : HardwareConsistent s) (he : exec i s = .next t) : DigitLinesSafe t := by
  cases hi : i.isContent with
  | true => exact (exec_content_sameEngine hi he).digitLinesSafe hsafe
  | false =>
    obtain ⟨dp, sp, b, -, -, hinit, hpins, rfl⟩ | ⟨hready, r, target, rfl⟩ | ⟨-, r, rfl⟩ := exec_engine_cases hi he
    · exact DigitLinesSafe.initialized h hinit hpins b
    · exact hsafe.moveTo h hready.1 target r
    · exact SameEngine.digitLinesSafe (by constructor <;> rfl) hsafe

/-- Settles O4: a step leaves the engine alone or runs one operation, and every event an operation emits is safe where it comes. -/
theorem stepKeepsTheDigitLinesSafe : Obligations.StepKeepsTheDigitLinesSafe := by
  unfold Obligations.StepKeepsTheDigitLinesSafe
  intro s t h hsafe hstep
  obtain ⟨hsame, -⟩ | ⟨i, u, hsame, hbm, he⟩ := step_cases hstep
  · exact hsame.digitLinesSafe hsafe
  · have hu := hsame.hardwareConsistent h.hardware (h.hardware.cells.of_eq hsame.cfg hbm)
    exact (hsame.digitLinesSafe hsafe).exec hu he

/-! ### What the segment lines show after a transition -/

/-- Entering leaves the segment lines alone. -/
theorem State.level_emitAll_enterEvents (hpins : PinMapLegal s.cfg s.dpin s.spin) {k : Nat} {x : PinId} (hk : s.spin[k]? = some x)
    (u : State) (target : Nat) : (u.emitAll (s.enterEvents target)).level x = u.level x := by
  refine u.level_emitAll_of_notMem fun l hl => ?_
  unfold State.enterEvents at hl
  split at hl
  · obtain ⟨y, hy, he⟩ := s.mem_energize hl
    cases he
    exact hpins.digit_ne_segment hy hk
  · cases hl

theorem State.transitionEvents_of_ne (h : s.cur ≠ s.targetState target) :
    s.transitionEvents target = s.leaveEvents ++ s.driveAll (s.sample target) ++ s.enterEvents target :=
  if_neg h

/-- A transition that changes `CUR` leaves each segment line at the level of its bit of the sampled byte (R78, R124). -/
theorem State.level_moveTo_segment (hpins : PinMapLegal s.cfg s.dpin s.spin) (hmoves : s.cur ≠ s.targetState target) {k : Nat} {x : PinId}
    (hk : s.spin[k]? = some x) : (s.moveTo target).level x = some (s.cfg.segmentLevel ((s.sample target).getLsbD k)) := by
  calc (s.moveTo target).level x
      = (s.emitAll (s.leaveEvents ++ s.driveAll (s.sample target) ++ s.enterEvents target)).level x := by
        rw [← State.transitionEvents_of_ne hmoves]
        rfl
    _ = ((s.emitAll s.leaveEvents).emitAll (s.driveAll (s.sample target))).level x := by
        rw [State.emitAll_append, State.emitAll_append, State.level_emitAll_enterEvents hpins hk]
    _ = some (s.cfg.segmentLevel ((s.sample target).getLsbD k)) := State.level_driveAll hpins _ _ hk

theorem State.segmentImage_moveTo (hpins : PinMapLegal s.cfg s.dpin s.spin) (hmoves : s.cur ≠ s.targetState target) :
    (s.moveTo target).segmentImage = s.cfg.lowSegments (s.sample target) := by
  rw [State.segmentImage_eq (b := s.sample target) (by simpa using hpins), State.moveTo_cfg]
  intro k x hk
  rw [State.level_moveTo_segment hpins hmoves (by simpa using hk), State.moveTo_cfg]

/-- Stepping to another digit shows that digit: its line alone, and its bitmap (R131). -/
theorem State.shows_moveTo (h : HardwareConsistent s) (hsafe : DigitLinesSafe s) (hinit : s.init = true) (hlt : target < s.cfg.digits)
    (hne : s.cur ≠ .showing target) :
    (s.moveTo target).energized = [target] ∧ (s.moveTo target).segmentImage = s.cfg.lowSegments (s.cell target) := by
  have hpins := h.pinMap hinit
  obtain ⟨-, hlines⟩ := (h.traceSafe hsafe hinit).moveTo hpins h.current (hsafe.current hinit) target
  refine ⟨hlines.trans (if_pos hlt), ?_⟩
  rw [State.segmentImage_moveTo hpins (by rwa [s.targetState_of_lt hlt]), State.sample, if_pos hlt]

/-- Settles O24: the transition drives the segment lines with the target's bitmap and leaves its line alone on. -/
theorem rewritingStepShowsTheSampledByte : Obligations.RewritingStepShowsTheSampledByte := by
  unfold Obligations.RewritingStepShowsTheSampledByte
  intro s target hcons hsafe hready hlt hne
  have hpins := hcons.pinMap hready.1
  obtain ⟨hon, himage⟩ := State.shows_moveTo hcons.hardware hsafe hready.1 hlt hne
  refine ⟨(s.moveTo target).returns .done, execAdvanceToDigit_of_ready s hready target, s.targetState_of_lt hlt, hon, himage,
    fun k x hk => ?_⟩
  have hlevel := State.level_moveTo_segment hpins (target := target) (by rwa [s.targetState_of_lt hlt]) hk
  rw [State.sample, if_pos hlt] at hlevel
  exact hlevel

end

end Sys2Proof.Machine

/-! SUPPORT. The events of a transition, case by case (41_multiplex_engine.md R118 to R123), and the operations that call it. -/

namespace Sys2Proof.Machine

section

variable {s t : State} {target c d : Nat} {x y : PinId}

/-! ### The cases of a transition -/

/-- From Blanked to a digit: the segment lines, then the digit line (R122; D4). -/
theorem State.transitionEvents_of_blanked (hcur : s.cur = .blanked) (hlt : target < s.cfg.digits) :
    s.transitionEvents target = s.driveAll (s.cell target) ++ s.energize target := by
  have hmoves : s.cur ≠ s.targetState target := by simp [hcur, s.targetState_of_lt hlt]
  rw [State.transitionEvents_of_ne hmoves, State.leaveEvents, hcur, State.sample, if_pos hlt, State.enterEvents_of_lt hlt,
    List.nil_append]

/-- From one digit to another: the old line off, the segment lines, the new line on (R120). -/
theorem State.transitionEvents_of_showing (hcur : s.cur = .showing c) (hne : c ≠ target) (hlt : target < s.cfg.digits) :
    s.transitionEvents target = s.deenergize c ++ s.driveAll (s.cell target) ++ s.energize target := by
  have hmoves : s.cur ≠ s.targetState target := by simpa [hcur, s.targetState_of_lt hlt] using hne
  rw [State.transitionEvents_of_ne hmoves, State.leaveEvents, hcur, State.sample, if_pos hlt, State.enterEvents_of_lt hlt]

/-- To the digit already showing: its line on, and nothing else (R121). -/
theorem State.transitionEvents_of_same (hcur : s.cur = .showing target) (hlt : target < s.cfg.digits) :
    s.transitionEvents target = s.energize target := by
  rw [State.transitionEvents, if_pos (by rw [hcur, s.targetState_of_lt hlt]), State.enterEvents_of_lt hlt]

/-- The segment events of a dark step are one off level per segment pin (R93). -/
theorem State.driveAll_zero (h : s.spin.length = s.cfg.segments) :
    s.driveAll 0x00#8 = s.spin.map fun z => PinEvent.setLevel z s.cfg.segmentOff := by
  rw [State.driveAll_eq s h]
  exact List.ext_getElem? fun k => by simp

theorem PinMapLegal.lt_digits (hpins : PinMapLegal s.cfg s.dpin s.spin) (hx : s.dpin[c]? = some x) : c < s.cfg.digits :=
  hpins.1 ▸ (List.getElem?_eq_some_iff.mp hx).1

/-- A ready `advanceToDigit` of an in-range target emits the events of its transition and shows the target (R118, R123). -/
theorem exec_advanceToDigit_of_lt (hready : s.ready) (hlt : target < s.cfg.digits) :
    exec (.advanceToDigit target) s =
      .next { (s.emitAll (s.transitionEvents target)) with cur := .showing target, ret := .done } := by
  rw [← s.targetState_of_lt hlt]
  exact execAdvanceToDigit_of_ready s hready target

/-- Settles O21: each case is its equation for `transitionEvents`, with the events of a line written out from the PinMap. -/
theorem advanceToDigitEmitsTheEventsOfItsCase : Obligations.AdvanceToDigitEmitsTheEventsOfItsCase := by
  unfold Obligations.AdvanceToDigitEmitsTheEventsOfItsCase
  intro s target hready hpins _
  have hsegments := hpins.2.1
  refine ⟨fun hle hcur => ?stays, fun x hx hcur => ?lights, fun c x y hx hy hne hcur => ?moves, fun x hx hcur => ?same,
    fun c y hle hy hcur => ?blanks⟩
  case stays => exact blankedToBlankDoesNothing s target hready hcur hle
  case lights =>
    have hlt := hpins.lt_digits hx
    rw [exec_advanceToDigit_of_lt hready hlt, State.transitionEvents_of_blanked hcur hlt, s.driveAll_eq hsegments,
      State.energize_eq hx]
  case moves =>
    have hlt := hpins.lt_digits hx
    rw [exec_advanceToDigit_of_lt hready hlt, State.transitionEvents_of_showing hcur hne hlt, s.driveAll_eq hsegments,
      State.energize_eq hx, State.deenergize_eq hy]
    rfl
  case same =>
    have hlt := hpins.lt_digits hx
    rw [exec_advanceToDigit_of_lt hready hlt, State.transitionEvents_of_same hcur hlt, State.energize_eq hx, ← hcur]
    rfl
  case blanks =>
    refine (execAdvanceToDigit_of_ready s hready target).trans ?_
    rw [State.moveTo, State.transitionEvents_of_showing_of_le hcur hle, State.driveAll_zero hsegments, State.deenergize_eq hy,
      s.targetState_of_le hle]
    rfl

/-! ### No pin twice -/

theorem State.pins_driveAll (h : s.spin.length = s.cfg.segments) (b : Byte) : (s.driveAll b).map PinEvent.pin = s.spin := by
  rw [s.driveAll_eq h]
  exact List.ext_getElem? fun k => by simp [Function.comp_def, PinEvent.pin]

/-- A digit line's switch acts on that line's pin, if the PinMap has one. -/
theorem State.pins_deenergize (s : State) (c : Nat) : (s.deenergize c).map PinEvent.pin = s.dpin[c]?.toList := by
  rw [State.deenergize]
  cases s.dpin[c]? <;> rfl

theorem State.pins_energize (s : State) (c : Nat) : (s.energize c).map PinEvent.pin = s.dpin[c]?.toList := by
  rw [State.energize]
  cases s.dpin[c]? <;> rfl

theorem State.pins_leaveEvents (s : State) :
    s.cur = .blanked ∧ s.leaveEvents.map PinEvent.pin = [] ∨
    ∃ c, s.cur = .showing c ∧ s.leaveEvents.map PinEvent.pin = s.dpin[c]?.toList := by
  unfold State.leaveEvents
  cases hcur : s.cur with
  | blanked => exact .inl ⟨rfl, rfl⟩
  | showing c => exact .inr ⟨c, rfl, s.pins_deenergize c⟩

theorem State.pins_enterEvents (s : State) (target : Nat) :
    target < s.cfg.digits ∧ (s.enterEvents target).map PinEvent.pin = s.dpin[target]?.toList ∨
    (s.enterEvents target).map PinEvent.pin = [] := by
  rcases Nat.lt_or_ge target s.cfg.digits with hlt | hle
  · exact .inl ⟨hlt, by rw [State.enterEvents_of_lt hlt, State.pins_energize]⟩
  · exact .inr (by rw [State.enterEvents_of_le hle, List.map_nil])

/-- The pin of a digit line is no segment pin. -/
theorem PinMapLegal.digit_notMem_segments (hpins : PinMapLegal s.cfg s.dpin s.spin) (hx : x ∈ s.dpin[c]?.toList) : x ∉ s.spin :=
  fun hmem => (List.nodup_append.mp hpins.2.2).2.2 x (List.mem_of_getElem? (Option.mem_toList.mp hx)) x hmem rfl

/-- The leaving event acts on no segment pin, nor does the entering one, and the two act on different lines (R131). -/
theorem State.pins_transitionEvents_nodup (hpins : PinMapLegal s.cfg s.dpin s.spin) (target : Nat) :
    ((s.transitionEvents target).map PinEvent.pin).Nodup := by
  have hsegments : s.spin.Nodup := (List.nodup_append.mp hpins.2.2).2.1
  by_cases hsame : s.cur = s.targetState target
  · rw [State.transitionEvents, if_pos hsame]
    obtain ⟨-, henter⟩ | henter := s.pins_enterEvents target
    · rw [henter]
      exact Option.toList_nodup _
    · rw [henter]
      exact List.nodup_nil
  · have hleaveDrive : (s.leaveEvents.map PinEvent.pin ++ s.spin).Nodup := by
      obtain ⟨-, hleave⟩ | ⟨c, -, hleave⟩ := s.pins_leaveEvents
      · rwa [hleave, List.nil_append]
      · rw [hleave]
        exact List.nodup_append.mpr ⟨Option.toList_nodup _, hsegments,
          fun x hx y hy hxy => hpins.digit_notMem_segments hx (hxy ▸ hy)⟩
    rw [State.transitionEvents_of_ne hsame, List.map_append, List.map_append, State.pins_driveAll hpins.2.1]
    obtain ⟨hlt, henter⟩ | henter := s.pins_enterEvents target
    · rw [henter]
      refine List.nodup_append.mpr ⟨hleaveDrive, Option.toList_nodup _, fun x hx y hy hxy => ?_⟩
      subst hxy
      rcases List.mem_append.mp hx with hx | hx
      · obtain ⟨-, hleave⟩ | ⟨c, hcur, hleave⟩ := s.pins_leaveEvents
        · rw [hleave] at hx
          cases hx
        · rw [hleave] at hx
          have hline := hpins.digit_unique (Option.mem_toList.mp hx) (Option.mem_toList.mp hy)
          exact hsame (by rw [hcur, hline, s.targetState_of_lt hlt])
      · exact hpins.digit_notMem_segments hy hx
    · rwa [henter, List.append_nil]

/-- Settles O25: the events appended are those of the transition. -/
theorem noPinIsWrittenTwiceInOneStep : Obligations.NoPinIsWrittenTwiceInOneStep := by
  unfold Obligations.NoPinIsWrittenTwiceInOneStep
  intro s t target hpins h
  obtain ⟨-, rfl⟩ := execAdvanceToDigit_cases s h
  exact ⟨s.transitionEvents target, s.moveTo_trace target, State.pins_transitionEvents_nodup hpins target⟩

/-! ### `initialize` -/

/-- Settles O18: the trace of `State.initialized`. -/
theorem initializeEmitsTwoEventsPerPin : Obligations.InitializeEmitsTwoEventsPerPin := by
  unfold Obligations.InitializeEmitsTwoEventsPerPin
  intro s dp sp b hinit hbusy hpins
  refine ⟨s.initialized dp sp b, execInitialize_of_legal s dp sp b hinit hbusy hpins, ?events, ?count⟩
  case events =>
    rw [State.initialized_trace, initializeEvents, List.append_assoc]
    rfl
  case count => rw [State.initialized_trace, List.length_append, initializeEvents_length hpins]

/-- Settles O19: the tests of `initialize`, in the order of its pseudocode (R116). -/
theorem initializeIsRefusedByName : Obligations.InitializeIsRefusedByName := by
  unfold Obligations.InitializeIsRefusedByName
  intro s dp sp b
  have refused : ∀ {r : Refusal}, s.initializeStop dp sp = some r → exec (.initializeEngine dp sp b) s = .refused r :=
    fun hstop => exec_of_startStop (i := .initializeEngine dp sp b) hstop
  refine ⟨fun hbusy => refused ?_, fun hbusy hinit => refused ?_, fun hbusy hinit hlength => refused ?_,
    fun hbusy hinit hdp hsp hrepeat => refused ?_⟩
  · simp [State.initializeStop, hbusy]
  · simp [State.initializeStop, hbusy, hinit]
  · simp [State.initializeStop, hbusy, hinit, hlength]
  · simp [State.initializeStop, hbusy, hinit, hdp, hsp, hrepeat]

/-! ### The other engine operations -/

theorem State.engineStop_of_busy (h : s.busy = true) : s.engineStop = some .reentered := by
  simp [State.engineStop, h]

theorem State.engineStop_of_not_init (hbusy : s.busy = false) (hinit : s.init = false) : s.engineStop = some .notInitialized := by
  simp [State.engineStop, hbusy, hinit]

/-- Settles O20: the four operations share one gate. -/
theorem engineOperationsAreGated : Obligations.EngineOperationsAreGated := by
  unfold Obligations.EngineOperationsAreGated
  intro s i hi
  have hgate : s.startStop i = s.engineStop := by
    obtain rfl | rfl | ⟨target, rfl⟩ | ⟨flag, rfl⟩ := hi <;> rfl
  exact ⟨fun hbusy => exec_of_startStop (hgate.trans (State.engineStop_of_busy hbusy)),
    fun hbusy hinit => exec_of_startStop (hgate.trans (State.engineStop_of_not_init hbusy hinit))⟩

theorem State.advanceTarget_of_showing (hcur : s.cur = .showing d) : s.advanceTarget = (d + 1) % s.cfg.digits := by
  rw [State.advanceTarget, hcur]

theorem State.advanceTarget_of_blanked (hcur : s.cur = .blanked) : s.advanceTarget = s.blankTarget := by
  rw [State.advanceTarget, hcur]

/-- `advance` from a digit is `advanceToDigit` of the next one, with the wrap (R126). -/
theorem exec_advance_of_showing (hcur : s.cur = .showing d) :
    exec .advance s = exec (.advanceToDigit ((d + 1) % s.cfg.digits)) s := by
  rw [← State.advanceTarget_of_showing hcur]
  exact execAdvance_eq s

/-- `advance` from Blanked completes and changes the result only (R126, R168). -/
theorem exec_advance_of_blanked (hready : s.ready) (hcur : s.cur = .blanked) : exec .advance s = .next (s.returns .done) := by
  refine (execAdvance_of_ready s hready).trans ?_
  rw [State.advanceTarget_of_blanked hcur, s.moveTo_blankTarget_of_blanked hcur]

theorem succ_mod_eq {N : Nat} (h : d < N) : (d + 1) % N = if d + 1 = N then 0 else d + 1 := by
  split
  · rename_i hwrap
    rw [hwrap, Nat.mod_self]
  · exact Nat.mod_eq_of_lt (by omega)

/-- Settles O26: `advance` is `advanceToDigit` of its target, which from Blanked changes nothing. -/
theorem advanceStepsToTheNextDigit : Obligations.AdvanceStepsToTheNextDigit := by
  unfold Obligations.AdvanceStepsToTheNextDigit
  intro s hready
  refine ⟨fun d hcur => exec_advance_of_showing hcur, fun d hcur hlt => ?_, fun hcur => exec_advance_of_blanked hready hcur⟩
  have hnext : (d + 1) % s.cfg.digits < s.cfg.digits := Nat.mod_lt _ (by omega)
  refine ⟨(s.moveTo ((d + 1) % s.cfg.digits)).returns .done, ?_, ?_, ?_⟩
  · rw [exec_advance_of_showing hcur]
    exact execAdvanceToDigit_of_ready s hready _
  · rw [← succ_mod_eq hlt]
    exact s.targetState_of_lt hnext
  · rw [State.moveTo_returns_eq]

/-- Settles O27: every target out of range does the same, and `setBlank` transits to one of them or to digit 0. -/
theorem setBlankJumpsToBlankOrDigitZero : Obligations.SetBlankJumpsToBlankOrDigitZero := by
  unfold Obligations.SetBlankJumpsToBlankOrDigitZero
  intro s hready hpos
  refine ⟨fun target hle => ?blank, rfl, fun flag => ⟨_, execSetBlank_of_ready s hready flag, ?current, ?frame⟩⟩
  case blank =>
    calc exec (.setBlank true) s
        = .next ((s.moveTo s.blankTarget).returns .done) := execSetBlank_of_ready s hready true
      _ = .next ((s.moveTo target).returns .done) := by rw [s.moveTo_of_le hle]
      _ = exec (.advanceToDigit target) s := (execAdvanceToDigit_of_ready s hready target).symm
  case current =>
    cases flag with
    | true => exact s.targetState_blankTarget
    | false => exact s.targetState_of_lt hpos
  case frame => rw [State.moveTo_returns_eq]

/-- Settles O28: after the first the display is Blanked, and the transition from Blanked to blank is the identity. -/
theorem blankingTwiceIsBlankingOnce : Obligations.BlankingTwiceIsBlankingOnce := by
  unfold Obligations.BlankingTwiceIsBlankingOnce
  intro s hready
  refine ⟨(s.moveTo s.blankTarget).returns .done, execSetBlank_of_ready s hready true, ?_⟩
  have hready' : ((s.moveTo s.blankTarget).returns .done).ready := by simpa using hready
  refine (execSetBlank_of_ready _ hready' true).trans ?_
  rw [if_pos rfl, State.moveTo_blankTarget_of_blanked _ (by simp)]
  rfl

/-- Settles O29: `isBlank` answers whether `CUR` is Blanked. -/
theorem isBlankReportsCurrentDigit : Obligations.IsBlankReportsCurrentDigit := by
  unfold Obligations.IsBlankReportsCurrentDigit
  intro s hready
  refine ⟨fun hcur => ?_, fun d hcur => ?_⟩
  · have hblank : s.isBlank = true := by rw [State.isBlank, hcur]
    exact (execIsBlank_of_ready s hready).trans (by rw [hblank]; rfl)
  · have hshows : s.isBlank = false := by rw [State.isBlank, hcur]
    exact (execIsBlank_of_ready s hready).trans (by rw [hshows]; rfl)

/-! ### Bit 7 without a decimal point -/

/-- The state with other bitmaps. -/
def State.withBitmaps (s : State) (m : Memory) : State := { s with bm := m }

theorem State.emitAll_withBitmaps (s : State) (m : Memory) (es : List PinEvent) :
    (s.withBitmaps m).emitAll es = (s.emitAll es).withBitmaps m := by
  induction es generalizing s with
  | nil => rfl
  | cons e es ih =>
    have hone : (s.withBitmaps m).emit e = (s.emit e).withBitmaps m := by cases e <;> rfl
    rw [State.emitAll_cons, hone, ih, State.emitAll_cons]

theorem State.sample_withBitmaps (s : State) (m : Memory) (target : Nat) :
    (s.withBitmaps m).sample target = if target < s.cfg.digits then m.read target else 0x00#8 := rfl

/-- A transition looks at the bitmaps only through the bits of its sample that drive a segment line (R77). -/
theorem State.transitionEvents_withBitmaps {m : Memory} (h : ∀ k < s.cfg.segments, (m.read target).getLsbD k = (s.cell target).getLsbD k) :
    (s.withBitmaps m).transitionEvents target = s.transitionEvents target := by
  have hdrive : (s.withBitmaps m).driveAll ((s.withBitmaps m).sample target) = s.driveAll (s.sample target) := by
    refine List.flatMap_congr fun k hk => ?_
    have hbit : ((s.withBitmaps m).sample target).getLsbD k = (s.sample target).getLsbD k := by
      rw [State.sample_withBitmaps, State.sample]
      split
      · exact h k (List.mem_range.mp hk)
      · rfl
    rw [hbit]
    rfl
  unfold State.transitionEvents
  rw [hdrive]
  rfl

theorem exec_advanceToDigit_withBitmaps {m : Memory} (h : ∀ k < s.cfg.segments, (m.read target).getLsbD k = (s.cell target).getLsbD k) :
    exec (.advanceToDigit target) (s.withBitmaps m) = mapNext (·.withBitmaps m) (exec (.advanceToDigit target) s) := by
  have hgate : (s.withBitmaps m).engineStop = s.engineStop := rfl
  simp only [exec, execAdvanceToDigit, hgate, State.moveTo, State.transitionEvents_withBitmaps h, State.emitAll_withBitmaps]
  cases s.engineStop <;> rfl

/-- With no decimal-point line there are seven segment lines, and bit 7 drives none (R77). -/
theorem getLsbD_or_pointBit_of_segment (hdp : s.cfg.decimalPoint = false) (b : Byte) {k : Nat} (hk : k < s.cfg.segments) :
    (b ||| 0x80#8).getLsbD k = b.getLsbD k := by
  have h7 : k ≠ 7 := by
    simp only [Params.segments, hdp, Bool.false_eq_true, if_false] at hk
    omega
  rw [BitVec.getLsbD_or, show (0x80#8 : Byte) = pointBit true from rfl, getLsbD_pointBit]
  simp [h7]

/-- Settles O45: the two stores leave bitmaps that agree in every bit that drives a line. -/
theorem bitSevenDrivesNothingWithoutDecimalPoint : Obligations.BitSevenDrivesNothingWithoutDecimalPoint := by
  unfold Obligations.BitSevenDrivesNothingWithoutDecimalPoint
  intro s pos target b hdp
  have hstore : s.store pos (b ||| 0x80#8) = (s.store pos b).withBitmaps (s.store pos (b ||| 0x80#8)).bm := by
    rw [s.store_eq pos b, s.store_eq pos (b ||| 0x80#8)]
    rfl
  have hbits : ∀ k < (s.store pos b).cfg.segments,
      ((s.store pos (b ||| 0x80#8)).bm.read target).getLsbD k = ((s.store pos b).cell target).getLsbD k := fun k hk => by
    have hcell : (s.store pos (b ||| 0x80#8)).bm.read target = (s.store pos (b ||| 0x80#8)).cell target := rfl
    rw [hcell, State.cell_store, State.cell_store]
    split
    · exact getLsbD_or_pointBit_of_segment hdp b (by simpa using hk)
    · rfl
  rw [hstore, exec_advanceToDigit_withBitmaps hbits]
  cases exec (.advanceToDigit target) (s.store pos b) <;> rfl

end

end Sys2Proof.Machine

/-! SUPPORT. The digits of a whole `valueToDisplay` in closed form (42_encoder.md R145 to R150). -/

namespace Sys2Proof.Machine

section

variable {s t : State} {value radix : Nat} {zeros : Bool} {dpPos : Option Nat}

/-! ### Leading zeros -/

/-- A digit and everything above it are 0 exactly when the value is below the digit's weight. -/
theorem digitOf_restAbove_eq_zero {N p : Nat} (hr : 0 < radix) (hp : p < N) :
    digitOf N value radix p = 0 ∧ restAbove N value radix p = 0 ↔ value < radix ^ (N - 1 - p) := by
  have hrest : restAbove N value radix p = value / radix ^ (N - 1 - p) / radix := by
    have hexp : N - p = N - 1 - p + 1 := by omega
    rw [restAbove, hexp, pow_succ, Nat.div_div_eq_div_mul]
  have hweight : 0 < radix ^ (N - 1 - p) := Nat.pow_pos hr
  rw [hrest, digitOf]
  constructor
  · rintro ⟨hmod, hdiv⟩
    have hzero : value / radix ^ (N - 1 - p) = 0 := by
      rw [← Nat.div_add_mod (value / radix ^ (N - 1 - p)) radix, hdiv, hmod, mul_zero]
    exact (Nat.div_eq_zero_iff_lt hweight).mp hzero
  · intro hlt
    rw [Nat.div_eq_of_lt hlt]
    exact ⟨Nat.zero_mod _, Nat.zero_div _⟩

/-- The operands at which a position is blank (R146): a leading zero, not requested, strictly left of the point and not the rightmost. -/
def BlankAt (N value radix : Nat) (zeros : Bool) (dpPos : Option Nat) (p : Nat) : Prop :=
  value < radix ^ (N - 1 - p) ∧ zeros = false ∧ dpPos.all (fun q => decide (p < q)) = true ∧ p + 1 ≠ N

theorem leftOfPoint_eq (dpPos : Option Nat) (p : Nat) : leftOfPoint dpPos p = dpPos.all fun q => decide (p < q) := by
  cases dpPos <;> rfl

theorem pointBit_pointAt (dpPos : Option Nat) (p : Nat) :
    pointBit (pointAt dpPos p) = if dpPos = some p then 0x80#8 else 0x00#8 := by
  cases dpPos with
  | none => rfl
  | some q => simp [pointBit, pointAt, eq_comm]

/-- The suppression rule on the digits of a value is the blank rule. -/
theorem suppressed_iff {c : Params} {p : Nat} (hr : 0 < radix) (hp : p < c.digits) :
    suppressed c p (digitOf c.digits value radix p) (restAbove c.digits value radix p) zeros dpPos = true ↔
      BlankAt c.digits value radix zeros dpPos p := by
  have hunits : p ≠ c.digits - 1 ↔ p + 1 ≠ c.digits := by omega
  rw [suppressed, BlankAt, ← digitOf_restAbove_eq_zero hr hp, leftOfPoint_eq]
  simp only [Bool.and_eq_true, decide_eq_true_eq, Bool.not_eq_true', hunits, and_assoc]

/-- A blank position is left of the point, so its point bit is off: the cell is 0x00 (R147). -/
theorem pointBit_of_blank {N p : Nat} (h : BlankAt N value radix zeros dpPos p) : pointBit (pointAt dpPos p) = 0x00#8 := by
  obtain ⟨-, -, hleft, -⟩ := h
  rw [pointBit_pointAt, if_neg]
  rintro rfl
  simp at hleft

theorem cellBitmap_of_blank {c : Params} {p : Nat} (hr : 0 < radix) (hp : p < c.digits) (h : BlankAt c.digits value radix zeros dpPos p) :
    cellBitmap c p (digitOf c.digits value radix p) (restAbove c.digits value radix p) zeros dpPos = some 0x00#8 := by
  rw [cellBitmap, if_pos ((suppressed_iff hr hp).mpr h), pointBit_of_blank h]

theorem cellBitmap_of_not_blank {c : Params} {p : Nat} (hr : 0 < radix) (hp : p < c.digits)
    (hdigit : digitOf c.digits value radix p ≤ 15) (h : ¬BlankAt c.digits value radix zeros dpPos p) :
    cellBitmap c p (digitOf c.digits value radix p) (restAbove c.digits value radix p) zeros dpPos =
      some (c.glyph (digitOf c.digits value radix p) ||| if dpPos = some p then 0x80#8 else 0x00#8) := by
  rw [cellBitmap, if_neg (mt (suppressed_iff hr hp).mp h), bitmapOf_of_le c _ hdigit, pointBit_pointAt]

/-! ### The cells -/

theorem execValueToDisplay_cell_blank (h : execValueToDisplay value radix zeros dpPos s = .next t) {p : Nat} (hp : p < s.cfg.digits)
    (hblank : BlankAt s.cfg.digits value radix zeros dpPos p) : t.cell p = 0x00#8 := by
  obtain ⟨hr, -, hcells⟩ := execValueToDisplay_cases h
  rw [hcells, if_pos hp, cellBitmap_of_blank (by omega) hp hblank, Option.getD_some]

theorem execValueToDisplay_cell_digit (h : execValueToDisplay value radix zeros dpPos s = .next t) {p : Nat} (hp : p < s.cfg.digits)
    (hdigit : digitOf s.cfg.digits value radix p ≤ 15) (hblank : ¬BlankAt s.cfg.digits value radix zeros dpPos p) :
    t.cell p = s.cfg.glyph (digitOf s.cfg.digits value radix p) ||| if dpPos = some p then 0x80#8 else 0x00#8 := by
  obtain ⟨hr, -, hcells⟩ := execValueToDisplay_cases h
  rw [hcells, if_pos hp, cellBitmap_of_not_blank (by omega) hp hdigit hblank, Option.getD_some]

/-- Settles O35: a cell is blank, shows its digit, or is kept. -/
theorem valueToDisplayWritesEveryDigit : Obligations.ValueToDisplayWritesEveryDigit := by
  unfold Obligations.ValueToDisplayWritesEveryDigit
  intro s value radix zeros dpPos hr
  obtain ⟨t, h⟩ := execValueToDisplay_next hr value zeros dpPos s
  obtain ⟨-, hframe, -⟩ := execValueToDisplay_cases h
  refine ⟨t, h, hframe, fun p => ?_⟩
  split
  · rename_i hwritten
    obtain ⟨hp, hdigit⟩ := hwritten
    split
    · rename_i hblank
      exact execValueToDisplay_cell_blank h hp hblank
    · rename_i hblank
      exact execValueToDisplay_cell_digit h hp hdigit hblank
  · rename_i hkept
    exact execValueToDisplay_cell_kept h (by omega)

theorem blankAt_iff (N p : Nat) :
    BlankAt N value radix zeros dpPos p ↔
      value < radix ^ (N - 1 - p) ∧ zeros = false ∧ (∀ q, dpPos = some q → p < q) ∧ p + 1 ≠ N := by
  simp [BlankAt, Option.all_eq_true]

/-- Settles O36: a radix of at most 16 has no digit above 15, so every cell is blank or shows its digit. -/
theorem onlyLeadingZerosLeftOfThePointAreBlank : Obligations.OnlyLeadingZerosLeftOfThePointAreBlank := by
  unfold Obligations.OnlyLeadingZerosLeftOfThePointAreBlank
  intro s value radix zeros dpPos hr hr16
  obtain ⟨t, h⟩ := execValueToDisplay_next hr value zeros dpPos s
  refine ⟨t, h, fun p hp => ?_⟩
  rw [← blankAt_iff]
  have hdigit : digitOf s.cfg.digits value radix p < radix := Nat.mod_lt _ (by omega)
  exact ⟨execValueToDisplay_cell_blank h hp, execValueToDisplay_cell_digit h hp (by omega)⟩

/-- On overflow no position is blank: the value is at least every digit's weight. -/
theorem not_blankAt_of_overflow {N p : Nat} (hr : 0 < radix) (hover : radix ^ N ≤ value) : ¬BlankAt N value radix zeros dpPos p := by
  rintro ⟨hlt, -⟩
  have hweight : radix ^ (N - 1 - p) ≤ radix ^ N := Nat.pow_le_pow_right hr (by omega)
  omega

/-- Settles O37: no position of an overflowing value is suppressed, and its result is that the value does not fit. -/
theorem overflowShowsTheLowDigits : Obligations.OverflowShowsTheLowDigits := by
  unfold Obligations.OverflowShowsTheLowDigits
  intro s value radix zeros dpPos hr hover
  obtain ⟨t, h⟩ := execValueToDisplay_next hr value zeros dpPos s
  refine ⟨t, h, ?result, fun p hp => ?cell⟩
  case result => rw [execValueToDisplay_ret h, decide_eq_false (Nat.not_lt.mpr hover)]
  case cell =>
    split
    · rename_i hdigit
      exact execValueToDisplay_cell_digit h hp hdigit (not_blankAt_of_overflow (by omega) hover)
    · rename_i hdigit
      exact execValueToDisplay_cell_kept h (.inr (by omega))

/-! ### Refusals and rejections -/

/-- Settles O33: `digitToBitmap` answers the failure indicator, and `valueToDisplay` keeps the cell. -/
theorem digitAboveFifteenIsRejected : Obligations.DigitAboveFifteenIsRejected := by
  unfold Obligations.DigitAboveFifteenIsRejected
  refine ⟨fun s value point habove => ?_, fun s value radix zeros dpPos p hr hp habove => ?_⟩
  · have hreject : bitmapOf s.cfg value point = none := if_pos habove
    simp only [exec, execDigitToBitmap, hreject]
    rfl
  · obtain ⟨t, h⟩ := execValueToDisplay_next hr value zeros dpPos s
    exact ⟨t, h, execValueToDisplay_cell_kept h (.inr habove)⟩

/-- Settles O38: the radix is tested before anything is written. -/
theorem radixBelowTwoIsRefused : Obligations.RadixBelowTwoIsRefused := by
  unfold Obligations.RadixBelowTwoIsRefused
  intro s value radix zeros dpPos hr
  exact if_pos hr

end

end Sys2Proof.Machine

/-! SUPPORT. The reads, the two writes against each other (40_display_state.md), and construction (70_reset_and_hazards.md R185). -/

namespace Sys2Proof.Machine

/-! ### Reads and writes -/

/-- Settles O11: the range test decides. -/
theorem readReturnsTheStoredByte : Obligations.ReadReturnsTheStoredByte := by
  unfold Obligations.ReadReturnsTheStoredByte
  intro s pos
  exact ⟨fun hin => if_pos hin, fun hout => if_neg (Nat.not_lt.mpr hout)⟩

theorem State.memRead_of_inRange {s : State} {p : Nat} (h : s.inRange p) : s.memRead p = (s.cell p, s) := if_pos h

theorem State.memRead_of_not_inRange {s : State} {p : Nat} (h : ¬s.inRange p) :
    s.memRead p = (Config.freeByte s.draws, { s with draws := s.draws + 1 }) := if_neg h

/-- Settles O13: `DA_READ` answers what `MemRead` gives, the cell in range and a draw otherwise. -/
theorem directReadReturnsTheByteOrADraw : Obligations.DirectReadReturnsTheByteOrADraw := by
  unfold Obligations.DirectReadReturnsTheByteOrADraw
  intro s pos
  refine ⟨fun hin => ?_, fun hout => ⟨Config.freeByte s.draws, ?_⟩⟩
  · rw [exec, execDaRead, State.memRead_of_inRange hin]
    rfl
  · rw [exec, execDaRead, State.memRead_of_not_inRange (Nat.not_lt.mpr hout)]
    rfl

theorem State.memWrite_of_inRange {s : State} {p : Nat} (v : Byte) (h : s.inRange p) : s.memWrite p v = s.store p v := by
  rw [State.memWrite, State.store, if_pos h, if_pos h]

theorem State.memWrite_of_not_inRange {s : State} {p : Nat} (v : Byte) (h : ¬s.inRange p) : s.memWrite p v = s.withScratch v := if_neg h

/-- Settles O15: `MemWrite` is the guarded store in range, and out of range goes to `SCRATCH` where the store does nothing. -/
theorem directWriteIsWriteButForScratch : Obligations.DirectWriteIsWriteButForScratch := by
  unfold Obligations.DirectWriteIsWriteButForScratch
  intro s pos v
  refine ⟨fun hin => ?_, fun hout => ?_⟩
  · rw [exec, exec, execDaWrite, execWrite, State.memWrite_of_inRange v hin]
  · rw [exec, exec, execDaWrite, execWrite, State.memWrite_of_not_inRange v (Nat.not_lt.mpr hout),
      State.store_of_not_inRange s v (Nat.not_lt.mpr hout)]
    rfl

/-! ### Construction -/

/-- Construction within the limit leaves the state right after power-on. -/
theorem construct_of_le {nMax : Option Nat} {p : Params} (hpos : 1 ≤ p.digits) (hmax : ∀ m, nMax = some m → p.digits ≤ m) :
    construct nMax p = .next (State.powerOn p) := by
  unfold construct
  rw [if_neg (by omega)]
  cases nMax with
  | none => rfl
  | some m => exact if_neg (Nat.not_lt.mpr (hmax m rfl))

/-- No digit, or more digits than the implementation has room for, is refused (R165). -/
theorem construct_refused {nMax : Option Nat} {p : Params} (h : p.digits = 0 ∨ ∃ m, nMax = some m ∧ m < p.digits) :
    construct nMax p = .refused .badDigitCount := by
  unfold construct
  split
  · rfl
  · rename_i hpos
    obtain ⟨m, rfl, hm⟩ := h.resolve_left hpos
    exact if_pos hm

/-- Settles O1: within the limit construction leaves the power-on state, whose fields are as R185 has them. -/
theorem constructionLeavesZeroedBitmapsAndUnknownPins : Obligations.ConstructionLeavesZeroedBitmapsAndUnknownPins := by
  unfold Obligations.ConstructionLeavesZeroedBitmapsAndUnknownPins
  refine ⟨fun nMax p hpos hmax => ?_, fun nMax p h => construct_refused h, rfl⟩
  exact ⟨State.powerOn p, construct_of_le hpos hmax, rfl, powerOn_cell p, rfl, rfl, rfl, rfl, rfl, fun x => ⟨rfl, rfl⟩⟩

theorem powerOn_consistent {p : Params} (h : p.admissible = true) : Consistent (State.powerOn p) where
  params := h
  cells := powerOn_wf p
  positions := by simp [State.powerOn]
  current := decide_eq_true (Params.digits_pos h)
  directions := rfl
  levels := rfl
  busyMark := rfl
  oneEngine := rfl
  admitted := ⟨rfl, rfl⟩
  unset := fun _ => ⟨rfl, rfl, rfl⟩
  pinMap := (nomatch ·)
  history := (nomatch ·)

/-- Before `initialize` the invariant of the digit lines asks nothing. -/
theorem powerOn_safe (p : Params) : DigitLinesSafe (State.powerOn p) :=
  ⟨(nomatch ·), (nomatch ·), (nomatch ·), (nomatch ·)⟩

/-- Settles O2: construction emits no event and flies no call; configuration A is admissible. -/
theorem constructedStateMeetsTheInvariants : Obligations.ConstructedStateMeetsTheInvariants := by
  unfold Obligations.ConstructedStateMeetsTheInvariants
  exact ⟨fun p hp => ⟨powerOn_consistent hp, powerOn_safe p⟩, powerOn_consistent (by decide), powerOn_safe configurationA⟩

end Sys2Proof.Machine

/-! SUPPORT. What one turn does, as equations: one for each thing its context can have in flight or next to call (20_memory.md R62, R63;
log 2, log 24), and the refusals of a turn. -/

namespace Sys2Proof.Machine

section

variable {s t : State} {a : Agent} {g : Grain} {tn : Turn} {turns : List Turn} {i : Instr} {r : Refusal}
  {record : List Byte} {calls : List (List Byte)}

/-! ### The next turn -/

theorem step_of_turns (h : s.turns = tn :: turns) : step s = takeTurn tn (s.withTurns turns) := by
  rw [step, nextTurn, h]
  rfl

theorem step_of_no_turns (h : s.turns = []) : step s = takeTurn s.defaultTurn s := by
  rw [step, nextTurn, h]

/-- The default turn is the main flow's where it has anything to call. -/
theorem State.defaultTurn_of_main (h : s.main.calls = record :: calls) : s.defaultTurn = { agent := .main, grain := .whole } := by
  simp [State.defaultTurn, Context.isIdle, h]

/-- It is the tick context's where the main flow has nothing to call. -/
theorem State.defaultTurn_of_tick (hcalls : s.main.calls = []) (hflight : s.main.flight = none) :
    s.defaultTurn = { agent := .tick, grain := .whole } := by
  simp [State.defaultTurn, Context.isIdle, hcalls, hflight]

/-! ### What a turn does -/

theorem takeTurn_of_display {j : DisplayJob} (h : (s.context a).flight = some (.display j)) :
    takeTurn { agent := a, grain := g } s = .next (runDisplay a g j s) := by
  rw [takeTurn, h]

theorem takeTurn_of_engine (h : (s.context a).flight = some (.engine i)) :
    takeTurn { agent := a, grain := g } s = exec i ((s.setFlight a none).withBusy false) := by
  rw [takeTurn, h]
  rfl

theorem takeTurn_of_no_call (hflight : (s.context a).flight = none) (hcalls : (s.context a).calls = []) :
    takeTurn { agent := a, grain := g } s = .next s := by
  rw [takeTurn, hflight]
  simp only [hcalls]

theorem takeTurn_of_error {e : DecodeError} (hflight : (s.context a).flight = none) (hcalls : (s.context a).calls = record :: calls)
    (hrecord : decodeRecord record = .error e) : takeTurn { agent := a, grain := g } s = .refused (.badCall e) := by
  rw [takeTurn, hflight]
  simp only [hcalls, hrecord]

section
variable (hflight : (s.context a).flight = none) (hcalls : (s.context a).calls = record :: calls) (hrecord : decodeRecord record = .ok i)
include hflight hcalls hrecord

theorem takeTurn_whole : takeTurn { agent := a, grain := .whole } s = exec i (s.popCall a calls) := by
  rw [takeTurn, hflight]
  simp only [hcalls, hrecord]

theorem takeTurn_unit : takeTurn { agent := a, grain := .unit } s = beginCall a i (s.popCall a calls) := by
  rw [takeTurn, hflight]
  simp only [hcalls, hrecord]

end

/-- An operation that holds `BUSY` and passes its gate is in flight after its first unit. -/
theorem beginCall_of_holdsBusy (hi : i.holdsBusy = true) (hstop : s.startStop i = none) :
    beginCall a i s = .next ((s.setFlight a (some (.engine i))).withBusy true) := by
  have hbegin : beginCall a i s = beginEngine a i s := by
    cases i <;> simp [Instr.holdsBusy, beginCall] at hi ⊢
  rw [hbegin, beginEngine, hstop]
  rfl

/-- A unit turn whose context's next call is an operation that holds `BUSY` starts it, if its gate lets it (R32, R170). -/
theorem step_begins_engine (hturns : s.turns = { agent := a, grain := .unit } :: turns) (hflight : (s.context a).flight = none)
    (hcalls : (s.context a).calls = record :: calls) (hrecord : decodeRecord record = .ok i) (hi : i.holdsBusy = true)
    (hstop : s.startStop i = none) :
    step s = .next ((((s.withTurns turns).popCall a calls).setFlight a (some (.engine i))).withBusy true) := by
  rw [step_of_turns hturns, takeTurn_unit (by simpa using hflight) (by simpa using hcalls) hrecord]
  exact beginCall_of_holdsBusy hi ((State.startStop_congr (by simp) (by simp) (by simp) i).trans hstop)

/-- The next turn of a context with an engine operation in flight runs it (R63). -/
theorem step_finishes_engine (hturns : s.turns = { agent := a, grain := g } :: turns) (hflight : (s.context a).flight = some (.engine i)) :
    step s = exec i (((s.withTurns turns).setFlight a none).withBusy false) := by
  rw [step_of_turns hturns, takeTurn_of_engine (by simpa using hflight)]

/-- A run of one step is that step. -/
theorem run_one (M : Host.Core) (s : M.State) : M.run 1 s = M.step s := by
  simp only [Host.Core.run]
  cases M.step s <;> rfl

/-- Settles O5: a whole turn runs the next call, be it the schedule's turn or the default one. -/
theorem stepRunsTheDecodedCall : Obligations.StepRunsTheDecodedCall := by
  unfold Obligations.StepRunsTheDecodedCall
  intro s a record calls turns i hflight hcalls hrecord hturn
  obtain hturn | ⟨hnone, rfl, hmain⟩ := hturn
  · rw [step_of_turns hturn, takeTurn_whole (by simpa using hflight) (by simpa using hcalls) hrecord]
    rfl
  · have hdefault : s.defaultTurn = { agent := a, grain := .whole } := by
      cases a with
      | main => exact State.defaultTurn_of_main hcalls
      | tick =>
        obtain ⟨hmainCalls, hmainFlight⟩ := hmain rfl
        exact State.defaultTurn_of_tick hmainCalls hmainFlight
    rw [step_of_no_turns hnone, hdefault, takeTurn_whole hflight hcalls hrecord, ← hnone]
    rfl

/-- Settles O6: a context with nothing in flight and nothing to call answers the state as it is, and a bad record is refused. -/
theorem stepWithoutACallChangesNothing : Obligations.StepWithoutACallChangesNothing := by
  unfold Obligations.StepWithoutACallChangesNothing
  refine ⟨fun s tn turns hturns hidle => ?_, fun s hturns hmain htick => ?_,
    fun s tn turns record calls e hturns hflight hcalls hrecord => ?_⟩
  · rw [step_of_turns hturns]
    exact takeTurn_of_no_call (by simp [hidle, Context.idle]) (by simp [hidle, Context.idle])
  · rw [step_of_no_turns hturns, State.defaultTurn_of_tick (by rw [hmain]; rfl) (by rw [hmain]; rfl)]
    exact takeTurn_of_no_call (by rw [State.context, htick]; rfl) (by rw [State.context, htick]; rfl)
  · rw [step_of_turns hturns]
    exact takeTurn_of_error (by simpa using hflight) (by simpa using hcalls) hrecord

/-! ### Refusals -/

/-- A refusal of an engine operation is its gate's. -/
theorem startStop_of_exec_refused (hi : i.isContent = false) (h : exec i s = .refused r) : s.startStop i = some r := by
  cases hstop : s.startStop i with
  | none =>
    obtain ⟨t, ht⟩ := exec_next_of_startStop hi hstop
    cases ht.symm.trans h
  | some r' =>
    cases (exec_of_startStop hstop).symm.trans h
    rfl

/-- Whether an operation is refused depends on the parameters, `INIT` and `BUSY` only. -/
theorem exec_refused_congr (hcfg : t.cfg = s.cfg) (hinit : t.init = s.init) (hbusy : t.busy = s.busy) (h : exec i s = .refused r) :
    exec i t = .refused r := by
  have engine : i.isContent = false → exec i t = .refused r := fun hi => by
    refine exec_of_startStop ?_
    rw [State.startStop_congr hcfg hinit hbusy]
    exact startStop_of_exec_refused hi h
  cases i with
  | read pos =>
    simp only [exec, execRead] at h
    split at h
    · cases h
    · rename_i hout
      cases h
      exact if_neg (by rwa [State.inRange, hcfg])
  | write _ _ => cases h
  | daRead _ => cases h
  | daWrite _ _ => cases h
  | digitToBitmap value point =>
    simp only [exec, execDigitToBitmap] at h
    split at h <;> cases h
  | valueToDisplay value radix zeros dpPos =>
    simp only [exec, execValueToDisplay] at h
    split at h
    · rename_i hr
      cases h
      exact if_pos hr
    · cases h
  | initializeEngine _ _ _ => exact engine rfl
  | advanceToDigit _ => exact engine rfl
  | advance => exact engine rfl
  | setBlank _ => exact engine rfl
  | isBlank => exact engine rfl

/-- The first unit of an operation that is refused is refused. -/
theorem beginCall_refused (h : exec i s = .refused r) : beginCall a i s = .refused r := by
  have engine : i.isContent = false → beginEngine a i s = .refused r := fun hi => by
    rw [beginEngine, startStop_of_exec_refused hi h]
  cases i with
  | read _ => exact h
  | write _ _ => exact h
  | daRead _ => exact h
  | daWrite _ _ => exact h
  | isBlank => exact h
  | digitToBitmap _ _ => exact h
  | valueToDisplay value radix zeros dpPos =>
    simp only [exec, execValueToDisplay] at h
    split at h
    · rename_i hr
      cases h
      exact if_pos hr
    · cases h
  | initializeEngine _ _ _ => exact engine rfl
  | advanceToDigit _ => exact engine rfl
  | advance => exact engine rfl
  | setBlank _ => exact engine rfl

/-- A turn that makes a call which is refused is refused, whatever its grain. -/
theorem takeTurn_refused (hflight : (s.context a).flight = none) (hcalls : (s.context a).calls = record :: calls)
    (hrecord : decodeRecord record = .ok i) (h : exec i s = .refused r) : takeTurn { agent := a, grain := g } s = .refused r := by
  have hpop : exec i (s.popCall a calls) = .refused r := exec_refused_congr (by simp) (by simp) (by simp) h
  cases g with
  | whole => rw [takeTurn_whole hflight hcalls hrecord, hpop]
  | unit => rw [takeTurn_unit hflight hcalls hrecord, beginCall_refused hpop]

/-- Settles O48: taking the call off its context changes nothing that a refusal depends on. -/
theorem refusedCallIsRefusedAtItsStart : Obligations.RefusedCallIsRefusedAtItsStart := by
  unfold Obligations.RefusedCallIsRefusedAtItsStart
  intro s a record calls turns g i r hflight hcalls hrecord hturns h
  rw [step_of_turns hturns]
  exact takeTurn_refused (by simpa using hflight) (by simpa using hcalls) hrecord (exec_refused_congr (s := s) rfl rfl rfl h)

theorem State.startStop_of_busy (hi : i.isContent = false) (h : s.busy = true) : s.startStop i = some .reentered := by
  cases i <;> simp [Instr.isContent, State.startStop, State.engineStop, State.initializeStop, h] at hi ⊢

/-- Settles O51: the gate of every engine operation tests `BUSY` first. -/
theorem reenteringEngineOperationIsRefused : Obligations.ReenteringEngineOperationIsRefused := by
  unfold Obligations.ReenteringEngineOperationIsRefused
  intro s a record calls turns g i hbusy hflight hcalls hrecord hi hturns
  exact refusedCallIsRefusedAtItsStart s a record calls turns g i .reentered hflight hcalls hrecord hturns
    (exec_of_startStop (State.startStop_of_busy hi hbusy))

/-! ### Engine operations in flight -/

/-- Settles O49: before `initialize` the gate refuses the tick; in Blanked the transition is the identity, on one turn or two. -/
theorem tickBeforeInitializeIsRefusedAndInBlankedDoesNothing : Obligations.TickBeforeInitializeIsRefusedAndInBlankedDoesNothing := by
  unfold Obligations.TickBeforeInitializeIsRefusedAndInBlankedDoesNothing
  refine ⟨fun s record calls turns g hinit hbusy htick hrecord hturn => ?refused,
    fun s record calls turns hready hcur htick hrecord hturns => ?whole,
    fun s record calls turns g hready hcur htick hrecord hturns => ?unit⟩
  case refused =>
    have hrefused : exec .advance s = .refused .notInitialized :=
      exec_of_startStop (i := .advance) (State.engineStop_of_not_init hbusy hinit)
    have hflight : (s.context .tick).flight = none := by rw [State.context, htick]
    have hcalls : (s.context .tick).calls = record :: calls := by rw [State.context, htick]
    obtain hturns | ⟨hturns, hmain⟩ := hturn
    · exact refusedCallIsRefusedAtItsStart s .tick record calls turns g .advance _ hflight hcalls hrecord hturns hrefused
    · rw [step_of_no_turns hturns, State.defaultTurn_of_tick (by rw [hmain]; rfl) (by rw [hmain]; rfl)]
      exact takeTurn_refused hflight hcalls hrecord hrefused
  case whole =>
    rw [stepRunsTheDecodedCall s .tick record calls turns .advance (by rw [State.context, htick]) (by rw [State.context, htick])
      hrecord (.inl hturns)]
    exact exec_advance_of_blanked hready hcur
  case unit =>
    obtain ⟨u, hu, hbegin⟩ : ∃ u, u = ((((s.withTurns ({ agent := .tick, grain := g } :: turns)).popCall .tick calls).setFlight .tick
        (some (.engine .advance))).withBusy true) ∧ step s = .next u :=
      ⟨_, rfl, step_begins_engine hturns (by rw [State.context, htick]) (by rw [State.context, htick]) hrecord rfl
        ((State.engineStop_eq_none s).mpr hready)⟩
    have hstate : ((u.withTurns turns).setFlight .tick none).withBusy false =
        { s with turns := turns, tick := { calls := calls, flight := none } } := by
      rw [hu, hready.2]
      simp only [State.setFlight, State.popCall, State.setContext, State.context, State.withTurns, State.withBusy]
    have hfinish : step u = .next { s with turns := turns, tick := { calls := calls, flight := none }, ret := .done } := by
      rw [step_finishes_engine (g := g) (turns := turns) (by rw [hu]; rfl) (by rw [hu]; rfl), hstate]
      exact exec_advance_of_blanked (s := { s with turns := turns, tick := { calls := calls, flight := none } }) hready hcur
    exact (run_of_step hbegin 1).trans ((run_one Sys2Proof.core u).trans hfinish)

/-- Settles O50: the operation passed its gate when it started, and nothing the gate reads has changed. -/
theorem engineOperationInFlightFinishes : Obligations.EngineOperationInFlightFinishes := by
  unfold Obligations.EngineOperationInFlightFinishes
  intro s tn turns i h hflight hturns
  have hadmitted := (h.flights tn.agent).admitted
  simp only [State.flightAdmitted, hflight, Bool.and_eq_true] at hadmitted
  obtain ⟨hholds, hgate⟩ := hadmitted
  have hstop : (((s.withTurns turns).setFlight tn.agent none).withBusy false).startStop i = none :=
    (State.startStop_congr (s := s.withBusy false) (by simp) (by simp) (by simp) i).trans (Option.isNone_iff_eq_none.mp hgate)
  obtain ⟨u, hu⟩ := exec_next_of_startStop (Instr.isContent_of_holdsBusy hholds) hstop
  refine ⟨u, ?_, exec_busy hu, ?_⟩
  · rw [← hu]
    exact step_finishes_engine hturns hflight
  · rw [exec_context hu]
    simp

end

end Sys2Proof.Machine

/-! SUPPORT. What a step does not observe: the scratch cell (20_memory.md R53), the pin latches (10_state.md R33) and, before `initialize`,
`CUR` (R40). The bookkeeping of a turn reads and writes none of these, so it is enough to look at the operations. -/

namespace Sys2Proof.Machine

/-- The fields that the bookkeeping of a turn neither reads nor writes, and that a `valueToDisplay` does not either. -/
structure Hidden where
  cur : Cur
  scratch : Byte
  dir : List (PinId × Direction)
  lvl : List (PinId × Level)

section

variable (F : Hidden → Hidden) {e : State → State} (s : State) {i : Instr} {a : Agent}

/-! ### Turns -/

/-- The state with those fields changed, each as a function of them. -/
def State.changeHidden (s : State) : State :=
  { s with
    cur := (F ⟨s.cur, s.scratch, s.dir, s.lvl⟩).cur
    scratch := (F ⟨s.cur, s.scratch, s.dir, s.lvl⟩).scratch
    dir := (F ⟨s.cur, s.scratch, s.dir, s.lvl⟩).dir
    lvl := (F ⟨s.cur, s.scratch, s.dir, s.lvl⟩).lvl }

@[simp] theorem State.changeHidden_init : (s.changeHidden F).init = s.init := rfl

@[simp] theorem State.context_changeHidden (a : Agent) : (s.changeHidden F).context a = s.context a := by
  cases a <;> rfl

theorem State.withTurns_changeHidden (turns : List Turn) :
    (s.changeHidden F).withTurns turns = (s.withTurns turns).changeHidden F := rfl

theorem State.withBusy_changeHidden (b : Bool) : (s.changeHidden F).withBusy b = (s.withBusy b).changeHidden F := rfl

theorem State.setFlight_changeHidden (a : Agent) (f : Option Flight) :
    (s.changeHidden F).setFlight a f = (s.setFlight a f).changeHidden F := by
  cases a <;> rfl

theorem State.popCall_changeHidden (a : Agent) (calls : List (List Byte)) :
    (s.changeHidden F).popCall a calls = (s.popCall a calls).changeHidden F := by
  cases a <;> rfl

theorem displayUnits_changeHidden (n : Nat) (j : DisplayJob) :
    displayUnits n j (s.changeHidden F) = ((displayUnits n j s).1, (displayUnits n j s).2.changeHidden F) := by
  obtain ⟨hjob, hbm⟩ := displayUnits_congr n j (s := s) (t := s.changeHidden F) rfl rfl
  refine Prod.ext hjob ?_
  rw [displayUnits_eq n j s, displayUnits_eq n j (s.changeHidden F), hbm]
  rfl

theorem runDisplay_changeHidden (a : Agent) (g : Grain) (j : DisplayJob) :
    runDisplay a g j (s.changeHidden F) = (runDisplay a g j s).changeHidden F := by
  simp only [runDisplay, displayUnits_changeHidden, State.setFlight_changeHidden]
  split <;> rfl

section

/-! Where every operation's outcome is the same once `e` is applied, with `INIT` as it is in `s`, so is a turn's. -/

variable (he : ∀ u, u.init = s.init → e (u.changeHidden F) = e u)
  (hexec : ∀ i u, u.init = s.init → mapNext e (exec i (u.changeHidden F)) = mapNext e (exec i u))
include he hexec

theorem beginCall_hidden (a : Agent) (i : Instr) {u : State} (hu : u.init = s.init) :
    mapNext e (beginCall a i (u.changeHidden F)) = mapNext e (beginCall a i u) := by
  have engine : mapNext e (beginEngine a i (u.changeHidden F)) = mapNext e (beginEngine a i u) := by
    have hstop : (u.changeHidden F).startStop i = u.startStop i := State.startStop_congr rfl rfl rfl i
    rw [beginEngine, beginEngine, hstop, State.setFlight_changeHidden]
    cases u.startStop i with
    | some r => rfl
    | none => exact congrArg Host.Outcome.next (he ((u.setFlight a (some (.engine i))).withBusy true) (by simpa using hu))
  have whole := hexec i u hu
  cases i with
  | read _ => exact whole
  | write _ _ => exact whole
  | daRead _ => exact whole
  | daWrite _ _ => exact whole
  | isBlank => exact whole
  | digitToBitmap _ _ => exact whole
  | initializeEngine _ _ _ => exact engine
  | advanceToDigit _ => exact engine
  | advance => exact engine
  | setBlank _ => exact engine
  | valueToDisplay value radix zeros dpPos =>
    have hjob : displayJob value radix zeros dpPos (u.changeHidden F) = displayJob value radix zeros dpPos u := rfl
    simp only [beginCall, hjob, runDisplay_changeHidden]
    split
    · rfl
    · exact congrArg Host.Outcome.next (he _ ((sameEngine_runDisplay _ _ _ _).init.trans hu))

theorem takeTurn_hidden (tn : Turn) {u : State} (hu : u.init = s.init) :
    mapNext e (takeTurn tn (u.changeHidden F)) = mapNext e (takeTurn tn u) := by
  obtain ⟨a, g⟩ := tn
  have hctx := u.context_changeHidden F a
  cases hflight : (u.context a).flight with
  | some f =>
    cases f with
    | display j =>
      rw [takeTurn_of_display hflight, takeTurn_of_display (by rw [hctx, hflight]), runDisplay_changeHidden]
      exact congrArg Host.Outcome.next (he _ ((sameEngine_runDisplay _ _ _ _).init.trans hu))
    | engine i =>
      rw [takeTurn_of_engine hflight, takeTurn_of_engine (by rw [hctx, hflight]), State.setFlight_changeHidden,
        State.withBusy_changeHidden]
      exact hexec i _ (by simpa using hu)
  | none =>
    cases hcalls : (u.context a).calls with
    | nil =>
      rw [takeTurn_of_no_call hflight hcalls, takeTurn_of_no_call (by rw [hctx, hflight]) (by rw [hctx, hcalls])]
      exact congrArg Host.Outcome.next (he u hu)
    | cons record calls =>
      cases hrecord : decodeRecord record with
      | error err =>
        rw [takeTurn_of_error hflight hcalls hrecord, takeTurn_of_error (by rw [hctx, hflight]) (by rw [hctx, hcalls]) hrecord]
      | ok i =>
        cases g with
        | whole =>
          rw [takeTurn_whole hflight hcalls hrecord, takeTurn_whole (by rw [hctx, hflight]) (by rw [hctx, hcalls]) hrecord,
            State.popCall_changeHidden]
          exact hexec i _ (by simpa using hu)
        | unit =>
          rw [takeTurn_unit hflight hcalls hrecord, takeTurn_unit (by rw [hctx, hflight]) (by rw [hctx, hcalls]) hrecord,
            State.popCall_changeHidden]
          exact beginCall_hidden F s he hexec a i (by simpa using hu)

/-- What no operation observes, no step observes. -/
theorem step_hidden : mapNext e (step (s.changeHidden F)) = mapNext e (step s) := by
  cases hturns : s.turns with
  | nil =>
    rw [step_of_no_turns hturns, step_of_no_turns (s := s.changeHidden F) hturns]
    exact takeTurn_hidden F s he hexec s.defaultTurn rfl
  | cons tn turns =>
    rw [step_of_turns hturns, step_of_turns (s := s.changeHidden F) hturns, State.withTurns_changeHidden]
    exact takeTurn_hidden F s he hexec tn (by simp)

end

/-- Settles O16: no operation observes `SCRATCH`. -/
theorem scratchContentIsNeverObserved : Obligations.ScratchContentIsNeverObserved := by
  unfold Obligations.ScratchContentIsNeverObserved
  intro s b
  exact step_hidden (fun h => { h with scratch := b }) s (fun u _ => rfl) fun i u _ => exec_ignores_scratch u b i 0x00#8

/-! ### Content operations -/

/-- A content operation carries over a change that keeps `SCRATCH`. -/
theorem exec_content_changeHidden (hF : ∀ h, (F h).scratch = h.scratch) (hi : i.isContent = true) :
    exec i (s.changeHidden F) = mapNext (s.changeHidden F).withContent (exec i s) := by
  have hself : (s.changeHidden F).withContent s = s.changeHidden F := by
    have hscratch := hF ⟨s.cur, s.scratch, s.dir, s.lvl⟩
    unfold State.withContent State.changeHidden
    rw [hscratch]
  have h := exec_withContent (u := s.changeHidden F) (s := s) hi rfl
  rwa [hself] at h

/-! ### The latches -/

/-- The state with these latches. -/
def State.withLatches (s : State) (dir : List (PinId × Direction)) (lvl : List (PinId × Level)) : State := { s with dir := dir, lvl := lvl }

variable (dir : List (PinId × Direction)) (lvl : List (PinId × Level))

theorem State.withLatches_eq_changeHidden : s.withLatches dir lvl = s.changeHidden fun h => { h with dir := dir, lvl := lvl } := rfl

/-- What events leave, the latches aside, is their trace. -/
theorem State.emitAll_withLatches_nil (es : List PinEvent) :
    ((s.withLatches dir lvl).emitAll es).withLatches [] [] = (s.emitAll es).withLatches [] [] := by
  rw [State.emitAll_eq, State.emitAll_eq s]
  rfl

theorem execAdvanceToDigit_latches (target : Nat) :
    mapNext (·.withLatches [] []) (execAdvanceToDigit target (s.withLatches dir lvl)) =
      mapNext (·.withLatches [] []) (execAdvanceToDigit target s) := by
  have hgate : (s.withLatches dir lvl).engineStop = s.engineStop := rfl
  have hevents : (s.withLatches dir lvl).transitionEvents target = s.transitionEvents target := rfl
  have hlatches := s.emitAll_withLatches_nil dir lvl (s.transitionEvents target)
  rw [execAdvanceToDigit, execAdvanceToDigit, hgate]
  cases s.engineStop with
  | some r => rfl
  | none =>
    rw [State.moveTo, hevents]
    exact congrArg (fun t => Host.Outcome.next ((t.setCur (s.targetState target)).returns .done)) hlatches

theorem execInitialize_latches (dp sp : List PinId) (b : Bool) :
    mapNext (·.withLatches [] []) (execInitialize dp sp b (s.withLatches dir lvl)) =
      mapNext (·.withLatches [] []) (execInitialize dp sp b s) := by
  have hgate : (s.withLatches dir lvl).initializeStop dp sp = s.initializeStop dp sp := rfl
  have hlatches := s.emitAll_withLatches_nil dir lvl (initializeEvents s.cfg dp sp)
  rw [execInitialize, execInitialize, hgate]
  cases s.initializeStop dp sp with
  | some r => rfl
  | none =>
    exact congrArg (fun t : State => Host.Outcome.next { t with
      dpin := dp, spin := sp, cur := if b then .blanked else .showing 0, init := true, ret := .done }) hlatches

theorem execIsBlank_latches :
    mapNext (·.withLatches [] []) (execIsBlank (s.withLatches dir lvl)) = mapNext (·.withLatches [] []) (execIsBlank s) := by
  have hgate : (s.withLatches dir lvl).engineStop = s.engineStop := rfl
  rw [execIsBlank, execIsBlank, hgate]
  cases s.engineStop <;> rfl

/-- No operation observes the latches (R33). -/
theorem exec_ignores_latches (i : Instr) :
    mapNext (·.withLatches [] []) (exec i (s.withLatches dir lvl)) = mapNext (·.withLatches [] []) (exec i s) := by
  have content : i.isContent = true →
      mapNext (·.withLatches [] []) (exec i (s.withLatches dir lvl)) = mapNext (·.withLatches [] []) (exec i s) := fun hi => by
    have h := exec_content_changeHidden (fun h => { h with dir := dir, lvl := lvl }) s (fun _ => rfl) hi
    rw [State.withLatches_eq_changeHidden, h]
    cases ht : exec i s with
    | next t =>
      rw [exec_content_frame hi ht]
      rfl
    | fault f => rfl
    | refused r => rfl
  cases i with
  | initializeEngine dp sp b => exact execInitialize_latches s dir lvl dp sp b
  | advanceToDigit target => exact execAdvanceToDigit_latches s dir lvl target
  | advance => exact execAdvanceToDigit_latches s dir lvl s.advanceTarget
  | setBlank flag => exact execAdvanceToDigit_latches s dir lvl (if flag then s.blankTarget else 0)
  | isBlank => exact execIsBlank_latches s dir lvl
  | read _ => exact content rfl
  | write _ _ => exact content rfl
  | daRead _ => exact content rfl
  | daWrite _ _ => exact content rfl
  | digitToBitmap _ _ => exact content rfl
  | valueToDisplay _ _ _ _ => exact content rfl

/-- Settles O43: no operation observes the latches. -/
theorem pinStateIsNeverRead : Obligations.PinStateIsNeverRead := by
  unfold Obligations.PinStateIsNeverRead
  intro s dir lvl
  exact step_hidden (fun h => { h with dir := dir, lvl := lvl }) s (fun u _ => rfl) fun i u _ => exec_ignores_latches u dir lvl i

/-! ### `CUR` before `initialize` -/

variable (c : Cur)

theorem State.setCur_eq_changeHidden : s.setCur c = s.changeHidden fun h => { h with cur := c } := rfl

theorem State.emitAll_setCur (es : List PinEvent) : (s.setCur c).emitAll es = (s.emitAll es).setCur c := by
  induction es generalizing s with
  | nil => rfl
  | cons e es ih =>
    have hone : (s.setCur c).emit e = (s.emit e).setCur c := by cases e <;> rfl
    rw [State.emitAll_cons, hone, ih, State.emitAll_cons]

/-- `initialize` assigns `CUR`, so what it was does not matter (R117). -/
theorem execInitialize_setCur (dp sp : List PinId) (b : Bool) : execInitialize dp sp b (s.setCur c) = execInitialize dp sp b s := by
  have hgate : (s.setCur c).initializeStop dp sp = s.initializeStop dp sp := rfl
  rw [execInitialize, execInitialize, hgate, State.setCur_cfg, State.emitAll_setCur]
  rfl

/-- The state with `CUR` set aside while it is not initialised. -/
def State.forgetCurBeforeInit (s : State) : State := if s.init then s else s.setCur .blanked

theorem State.forgetCurBeforeInit_setCur (h : s.init = false) : (s.setCur c).forgetCurBeforeInit = s.forgetCurBeforeInit := by
  simp only [State.forgetCurBeforeInit, State.setCur_init, h, Bool.false_eq_true, if_false]
  rfl

/-- Before `initialize` a content operation carries `CUR` along, `initialize` assigns it and the others are refused. -/
theorem exec_ignores_cur_before_init (hinit : s.init = false) (i : Instr) :
    mapNext State.forgetCurBeforeInit (exec i (s.setCur c)) = mapNext State.forgetCurBeforeInit (exec i s) := by
  have content : i.isContent = true →
      mapNext State.forgetCurBeforeInit (exec i (s.setCur c)) = mapNext State.forgetCurBeforeInit (exec i s) := fun hi => by
    have h := exec_content_changeHidden (fun h => { h with cur := c }) s (fun _ => rfl) hi
    rw [State.setCur_eq_changeHidden, h]
    cases ht : exec i s with
    | next t =>
      have ht' : t.init = false := (exec_content_sameEngine hi ht).init.trans hinit
      have hset : (s.changeHidden fun h => { h with cur := c }).withContent t = t.setCur c := by
        rw [exec_content_frame hi ht]
        rfl
      simp only [mapNext, hset, State.forgetCurBeforeInit_setCur t c ht']
    | fault f => rfl
    | refused r => rfl
  have gated : s.startStop i = s.engineStop →
      mapNext State.forgetCurBeforeInit (exec i (s.setCur c)) = mapNext State.forgetCurBeforeInit (exec i s) := fun hgate => by
    obtain ⟨r, hr⟩ : ∃ r, s.startStop i = some r := by
      rw [hgate, ← Option.ne_none_iff_exists', Ne, State.engineStop_eq_none]
      exact fun hready => absurd hready.1 (by simp [hinit])
    have hr' : (s.setCur c).startStop i = some r := (State.startStop_congr (s := s) rfl rfl rfl i).trans hr
    rw [exec_of_startStop hr, exec_of_startStop hr']
  cases i with
  | initializeEngine dp sp b => exact congrArg (mapNext State.forgetCurBeforeInit) (execInitialize_setCur s c dp sp b)
  | advanceToDigit _ => exact gated rfl
  | advance => exact gated rfl
  | setBlank _ => exact gated rfl
  | isBlank => exact gated rfl
  | read _ => exact content rfl
  | write _ _ => exact content rfl
  | daRead _ => exact content rfl
  | daWrite _ _ => exact content rfl
  | digitToBitmap _ _ => exact content rfl
  | valueToDisplay _ _ _ _ => exact content rfl

/-- Settles O44: before `initialize` no operation observes `CUR`. -/
theorem currentDigitBeforeInitializeIsNeverObserved : Obligations.CurrentDigitBeforeInitializeIsNeverObserved := by
  unfold Obligations.CurrentDigitBeforeInitializeIsNeverObserved
  intro s c hinit
  exact step_hidden (e := State.forgetCurBeforeInit) (fun h => { h with cur := c }) s
    (fun u hu => u.forgetCurBeforeInit_setCur c (hu.trans hinit)) fun i u hu => exec_ignores_cur_before_init u c (hu.trans hinit) i

end

end Sys2Proof.Machine

/-! SUPPORT. Calls taken a unit at a time (20_memory.md R61 to R63; D20, log 24): the units of a `valueToDisplay` add up to the whole call,
and a content call between the start and the unit of an engine operation comes before it. -/

namespace Sys2Proof.Machine

section

variable {s t u : State} {a b : Agent} {g : Grain} {j : DisplayJob} {turns : List Turn} {f f' : Option Flight}

/-! ### The units of a `valueToDisplay` under the bookkeeping of a turn -/

theorem displayUnits_setFlight (n : Nat) (j : DisplayJob) (s : State) (a : Agent) (f : Option Flight) :
    displayUnits n j (s.setFlight a f) = ((displayUnits n j s).1, (displayUnits n j s).2.setFlight a f) := by
  obtain ⟨hjob, hbm⟩ := displayUnits_congr n j (s.setFlight_cfg a f) (s.setFlight_bm a f)
  refine Prod.ext hjob ?_
  rw [displayUnits_eq n j s, displayUnits_eq n j (s.setFlight a f), hbm]
  cases a <;> rfl

theorem displayUnits_withTurns (n : Nat) (j : DisplayJob) (s : State) (turns : List Turn) :
    displayUnits n j (s.withTurns turns) = ((displayUnits n j s).1, (displayUnits n j s).2.withTurns turns) := by
  obtain ⟨hjob, hbm⟩ := displayUnits_congr n j (s.withTurns_cfg turns) (s.withTurns_bm turns)
  refine Prod.ext hjob ?_
  rw [displayUnits_eq n j s, displayUnits_eq n j (s.withTurns turns), hbm]
  rfl

theorem displayUnit_left (j : DisplayJob) (s : State) : (displayUnit j s).1.left = j.left - 1 := by
  unfold displayUnit
  split <;> simp [*]

theorem displayUnits_left (n : Nat) (j : DisplayJob) (s : State) : (displayUnits n j s).1.left = j.left - n := by
  induction n generalizing j s with
  | zero => rfl
  | succ n ih => rw [displayUnits_succ, ih, displayUnit_left]; omega

@[simp] theorem State.setFlight_setFlight (s : State) (a : Agent) (f f' : Option Flight) :
    (s.setFlight a f).setFlight a f' = s.setFlight a f' := by
  cases a <;> rfl

theorem State.setFlight_self (h : (s.context a).flight = f) : s.setFlight a f = s := by
  subst h
  cases a <;> rfl

theorem State.withTurns_setFlight (s : State) (a : Agent) (f : Option Flight) (turns : List Turn) :
    (s.setFlight a f).withTurns turns = (s.withTurns turns).setFlight a f := by
  cases a <;> rfl

/-! ### Going on to the end -/

/-- The state in which context `a` has run all that is left of a `valueToDisplay` and returned its result. -/
def State.displayed (s : State) (a : Agent) (j : DisplayJob) : State :=
  ((displayUnits j.left j s).2.setFlight a none).returns (.bool (fits (displayUnits j.left j s).1.rest))

/-- What the context had in flight is gone when the job is done. -/
theorem State.displayed_setFlight (s : State) (a : Agent) (f : Option Flight) (j : DisplayJob) :
    (s.setFlight a f).displayed a j = s.displayed a j := by
  simp only [State.displayed, displayUnits_setFlight, State.setFlight_setFlight]

/-- One unit and then the rest is all of it. -/
theorem State.displayed_displayUnit (h : 0 < j.left) : (displayUnit j s).2.displayed a (displayUnit j s).1 = s.displayed a j := by
  obtain ⟨n, hn⟩ : ∃ n, j.left = n + 1 := ⟨j.left - 1, by omega⟩
  have hleft : (displayUnit j s).1.left = n := by rw [displayUnit_left]; omega
  rw [State.displayed, State.displayed, hleft, hn, displayUnits_succ]

theorem State.displayed_withTurns (s : State) (a : Agent) (j : DisplayJob) (turns : List Turn) :
    (s.withTurns turns).displayed a j = (s.displayed a j).withTurns turns := by
  simp only [State.displayed, displayUnits_withTurns, ← State.withTurns_setFlight]
  rfl

/-- A turn that runs all the units left finishes the call. -/
theorem runDisplay_of_all (h : unitsOf g j.left = j.left) : runDisplay a g j s = s.displayed a j := by
  have hleft : (displayUnits j.left j s).1.left = 0 := by rw [displayUnits_left]; omega
  rw [State.displayed]
  simp only [runDisplay, h, hleft, if_true]

/-- A unit turn with more than one unit left leaves the call in flight. -/
theorem runDisplay_of_unit (h : 2 ≤ j.left) :
    runDisplay a .unit j s = (displayUnit j s).2.setFlight a (some (.display (displayUnit j s).1)) := by
  have hunits : unitsOf .unit j.left = 1 := by rw [unitsOf]; omega
  have hleft : ¬(displayUnit j s).1.left = 0 := by rw [displayUnit_left]; omega
  have hone : displayUnits 1 j s = displayUnit j s := rfl
  simp only [runDisplay, hunits, hone, hleft, if_false]

theorem runDisplay_setFlight (s : State) (a : Agent) (g : Grain) (j : DisplayJob) (f : Option Flight) :
    runDisplay a g j (s.setFlight a f) = runDisplay a g j s := by
  simp only [runDisplay, displayUnits_setFlight, State.setFlight_setFlight]

/-- The last turn of a schedule of `k + 1` runs all that the `k` unit turns before it leave. -/
theorem unitsOf_last (h : g = .whole ∨ 1 = j.left) : unitsOf g j.left = j.left := by
  obtain rfl | hone := h
  · rfl
  · cases g
    · rfl
    · rw [unitsOf, ← hone]
      rfl

/-- `k` unit turns and a last one finish a `valueToDisplay` in flight as one turn would. -/
theorem run_display (k : Nat) (hflight : (s.context a).flight = some (.display j))
    (hturns : s.turns = List.replicate k { agent := a, grain := .unit } ++ { agent := a, grain := g } :: turns) (hk : k < j.left)
    (hlast : g = .whole ∨ k + 1 = j.left) : Sys2Proof.core.run (k + 1) s = .next ((s.displayed a j).withTurns turns) := by
  induction k generalizing s j with
  | zero =>
    have hstep : step s = .next ((s.displayed a j).withTurns turns) := by
      rw [step_of_turns hturns, takeTurn_of_display (by simpa using hflight), runDisplay_of_all (unitsOf_last (by simpa using hlast)),
        State.displayed_withTurns]
    exact (run_one Sys2Proof.core s).trans hstep
  | succ k ih =>
    obtain ⟨rest, hrest⟩ : ∃ rest, rest = List.replicate k { agent := a, grain := .unit } ++ { agent := a, grain := g } :: turns :=
      ⟨_, rfl⟩
    obtain ⟨j', v, hunit⟩ : ∃ j' v, displayUnit j (s.withTurns rest) = (j', v) := ⟨_, _, rfl⟩
    have hstep : step s = .next (v.setFlight a (some (.display j'))) := by
      rw [step_of_turns (turns := rest) (by rw [hrest]; exact hturns), takeTurn_of_display (by simpa using hflight),
        runDisplay_of_unit (by omega), hunit]
    have hleft : j'.left = j.left - 1 := by rw [← displayUnit_left j (s.withTurns rest), hunit]
    have hframe : v = { s.withTurns rest with bm := v.bm } := by
      have h := displayUnit_eq j (s.withTurns rest)
      rwa [hunit] at h
    have hturns' : (v.setFlight a (some (.display j'))).turns = rest := by
      rw [State.setFlight_turns, hframe]
      rfl
    have hdone : v.displayed a j' = (s.displayed a j).withTurns rest := by
      have h := State.displayed_displayUnit (s := s.withTurns rest) (a := a) (j := j) (by omega)
      rwa [hunit, State.displayed_withTurns] at h
    have hrun := ih (s := v.setFlight a (some (.display j'))) (j := j') (by simp) (hturns'.trans hrest) (by omega)
      (hlast.imp_right fun _ => by omega)
    rw [run_of_step hstep, hrun, State.displayed_setFlight, hdone]
    rfl

/-- Steps that answer alike start runs that answer alike. -/
theorem run_congr (M : Host.Core) {s t : M.State} (h : M.step s = M.step t) (k : Nat) : M.run (k + 1) s = M.run (k + 1) t := by
  simp only [Host.Core.run, h]

/-- The whole of a call with no flight of its own is its units and its result. -/
theorem exec_valueToDisplay_eq {value radix : Nat} (hr : 2 ≤ radix) (zeros : Bool) (dpPos : Option Nat)
    (hflight : (s.context a).flight = none) :
    exec (.valueToDisplay value radix zeros dpPos) s = .next (s.displayed a (displayJob value radix zeros dpPos s)) := by
  have hself : (displayUnits s.cfg.digits (displayJob value radix zeros dpPos s) s).2.setFlight a none =
      (displayUnits s.cfg.digits (displayJob value radix zeros dpPos s) s).2 :=
    State.setFlight_self (by rw [displayUnits_context, hflight])
  rw [exec, execValueToDisplay, if_neg (by omega), State.displayed]
  exact congrArg (fun t : State => Host.Outcome.next (t.returns _)) hself.symm

theorem State.withTurns_popCall (s : State) (a : Agent) (calls : List (List Byte)) (turns : List Turn) :
    (s.popCall a calls).withTurns turns = (s.withTurns turns).popCall a calls := by
  cases a <;> rfl

section
variable {record : List Byte} {calls : List (List Byte)} {value radix : Nat} {zeros : Bool} {dpPos : Option Nat}

/-- The first unit turn of a `valueToDisplay` does what it would do with the call in flight and nothing written. -/
theorem step_display_first (hr : 2 ≤ radix) (hflight : (s.context a).flight = none) (hcalls : (s.context a).calls = record :: calls)
    (hrecord : decodeRecord record = .ok (.valueToDisplay value radix zeros dpPos))
    (hturns : s.turns = { agent := a, grain := .unit } :: turns) :
    step s = step ((s.popCall a calls).setFlight a (some (.display (displayJob value radix zeros dpPos s)))) := by
  have hfresh : step s =
      .next (runDisplay a .unit (displayJob value radix zeros dpPos s) ((s.withTurns turns).popCall a calls)) := by
    rw [step_of_turns hturns, takeTurn_unit (by simpa using hflight) (by simpa using hcalls) hrecord, beginCall,
      if_neg (by omega)]
    simp [displayJob]
  rw [hfresh, step_of_turns (s := (s.popCall a calls).setFlight a _) (by simpa using hturns),
    takeTurn_of_display (j := displayJob value radix zeros dpPos s) (by simp), State.withTurns_setFlight,
    State.withTurns_popCall, runDisplay_setFlight]

end

/-- A schedule of unit turns and a last one that is not just a whole one begins with a unit turn. -/
theorem exists_first_unit {k : Nat} (h : ¬(k = 0 ∧ g = .whole)) (turns : List Turn) :
    ∃ rest, List.replicate k { agent := a, grain := .unit } ++ { agent := a, grain := g } :: turns =
      ({ agent := a, grain := .unit } : Turn) :: rest := by
  cases k with
  | succ k => exact ⟨_, rfl⟩
  | zero =>
    cases g with
    | unit => exact ⟨turns, rfl⟩
    | whole => exact absurd ⟨rfl, rfl⟩ h

/-- Settles O46: the first unit turn acts as if the call had been in flight with nothing written, and from there on the turns finish it. -/
theorem unitTurnsAmountToTheWholeCall : Obligations.UnitTurnsAmountToTheWholeCall := by
  unfold Obligations.UnitTurnsAmountToTheWholeCall
  intro s a record calls turns value radix zeros dpPos k g hk hlast hr hflight hcalls hrecord hturns
  by_cases hone : k = 0 ∧ g = .whole
  · obtain ⟨rfl, rfl⟩ := hone
    exact (run_one Sys2Proof.core s).trans (stepRunsTheDecodedCall s a record calls turns _ hflight hcalls hrecord (.inl hturns))
  · obtain ⟨rest, hrest⟩ := exists_first_unit (a := a) hone turns
    have hfirst := step_display_first hr hflight hcalls hrecord (hturns.trans hrest)
    have hwhole := exec_valueToDisplay_eq (s := (s.withTurns turns).popCall a calls) (a := a) (value := value) hr zeros dpPos
      (by simp)
    have hjob : displayJob value radix zeros dpPos ((s.withTurns turns).popCall a calls) = displayJob value radix zeros dpPos s := by
      simp [displayJob]
    have hrun := run_display (a := a) (j := displayJob value radix zeros dpPos s) k
      (s := (s.popCall a calls).setFlight a (some (.display (displayJob value radix zeros dpPos s))))
      (by simp) (by simpa using hturns) hk hlast
    rw [← State.displayed_withTurns, State.withTurns_setFlight, State.withTurns_popCall, State.displayed_setFlight] at hrun
    rw [hjob] at hwhole
    exact (run_congr Sys2Proof.core hfirst k).trans (hrun.trans hwhole.symm)

/-! ### A content call during an engine operation -/

section

variable {i c : Instr} {ca cb : List (List Byte)} {rest : List Turn}

theorem Agent.eq_other_of_ne (h : a ≠ b) : b = a.other := by
  cases a <;> cases b <;> simp [Agent.other] at h ⊢

/-- The state with two calls made and nothing come of either, and these turns to go. -/
def State.callsMade (s : State) (a : Agent) (ca cb : List (List Byte)) (turns : List Turn) : State :=
  ((s.withTurns turns).popCall a ca).popCall a.other cb

/-- The same, with the first context's call an engine operation that has started (R32). -/
def State.callDuring (s : State) (a : Agent) (i : Instr) (ca cb : List (List Byte)) (turns : List Turn) : State :=
  ((((s.withTurns turns).popCall a ca).setFlight a (some (.engine i))).withBusy true).popCall a.other cb

/-- That an engine operation has started is nothing to a content operation. -/
theorem exec_callDuring (hc : c.isContent = true) :
    exec c (s.callDuring a i ca cb rest) = mapNext (s.callDuring a i ca cb rest).withContent (exec c (s.callsMade a ca cb turns)) := by
  have hself : (s.callDuring a i ca cb rest).withContent (s.callsMade a ca cb turns) = s.callDuring a i ca cb rest := by
    cases a <;> rfl
  have h := exec_withContent (u := s.callDuring a i ca cb rest) (s := s.callsMade a ca cb turns) hc
    (by simp [State.callDuring, State.callsMade])
  rwa [hself] at h

/-- When the started operation is taken up, what it finds is the state with the content operation done. -/
theorem State.finish_callDuring (hbusy : s.busy = false) (t : State) :
    ((((s.callDuring a i ca cb rest).withContent t).withTurns turns).setFlight a none).withBusy false =
      (s.callsMade a ca cb turns).withContent t := by
  cases a <;> simp only [State.callDuring, State.callsMade, State.withContent, State.withTurns, State.withBusy, State.popCall,
    State.setFlight, State.setContext, State.context, Agent.other, hbusy]

end

/-- A step that is refused ends a run. -/
theorem run_refused {r : Refusal} (h : step s = .refused r) (k : Nat) : Sys2Proof.core.run (k + 1) s = .refused r := by
  have hcore : Sys2Proof.core.step s = .refused r := h
  simp only [Host.Core.run, hcore]

/-- Settles O47: the content call leaves the engine operation in flight and its gate as they were, and does the same before it. -/
theorem contentCallDuringAnEngineOperationComesBeforeIt : Obligations.ContentCallDuringAnEngineOperationComesBeforeIt := by
  unfold Obligations.ContentCallDuringAnEngineOperationComesBeforeIt
  intro s a b ra rb ca cb turns g i c hab hbusy hfa hfb hca hcb hra hrb hi hstop hc hturns
  obtain rfl := Agent.eq_other_of_ne hab
  obtain ⟨last, hlast⟩ : ∃ last, last = ({ agent := a, grain := g } : Turn) :: turns := ⟨_, rfl⟩
  rw [← hlast] at hturns
  obtain ⟨u, hu, hbegin⟩ : ∃ u, u = ((((s.withTurns ({ agent := a.other, grain := .whole } :: last)).popCall a ca).setFlight a
      (some (.engine i))).withBusy true) ∧ step s = .next u := ⟨_, rfl, step_begins_engine hturns hfa hca hra hi hstop⟩
  have hother : u.context a.other = s.context a.other := by simp [hu]
  have hduring : step u = exec c (s.callDuring a i ca cb last) := by
    rw [step_of_turns (tn := { agent := a.other, grain := .whole }) (turns := last) (by simp [hu]),
      takeTurn_whole (by simpa [hother] using hfb) (by simpa [hother] using hcb) hrb, hu]
    cases a <;> rfl
  rw [exec_callDuring (turns := turns) hc] at hduring
  suffices hrun : Sys2Proof.core.run 2 u = match exec c (s.callsMade a ca cb turns) with
      | .next t => exec i t
      | .fault r => .fault r
      | .refused r => .refused r from (run_of_step hbegin 2).trans hrun
  cases hexec : exec c (s.callsMade a ca cb turns) with
  | next t =>
    rw [hexec] at hduring
    have hcontext : ((s.callDuring a i ca cb last).withContent t).context a = { calls := ca, flight := some (.engine i) } := by
      cases a <;> rfl
    have hfinish : step ((s.callDuring a i ca cb last).withContent t) = exec i t := by
      rw [step_finishes_engine (a := a) (g := g) (turns := turns) (i := i) (by cases a <;> exact hlast) (by rw [hcontext]),
        State.finish_callDuring hbusy, ← exec_content_frame hc hexec]
    exact (run_of_step hduring 1).trans ((run_one Sys2Proof.core _).trans hfinish)
  | fault f => cases f
  | refused r =>
    rw [hexec] at hduring
    exact run_refused hduring 1

end

end Sys2Proof.Machine

/-! SUPPORT. Ticks in a row (41_multiplex_engine.md R126, R131; 70_reset_and_hazards.md R196, R197). -/

namespace Sys2Proof.Machine

section

variable {s t : State} {d k : Nat}

/-! ### One tick after another -/

theorem ticks_succ (h : exec .advance s = .next t) (k : Nat) : ticks (k + 1) s = ticks k t := by
  rw [ticks, h]

/-- Ticks that complete begin with one that does. -/
theorem ticks_succ_cases (h : ticks (k + 1) s = .next t) : ∃ u, exec .advance s = .next u ∧ ticks k u = .next t := by
  rw [ticks] at h
  split at h
  · exact ⟨_, ‹_›, h⟩
  · cases h
  · cases h

/-- Ticks write no bitmap and no parameter (R22). -/
theorem ticks_frame (h : ticks k s = .next t) : t.cfg = s.cfg ∧ t.bm = s.bm := by
  induction k generalizing s with
  | zero =>
    cases h
    exact ⟨rfl, rfl⟩
  | succ k ih =>
    obtain ⟨u, hu, h⟩ := ticks_succ_cases h
    obtain ⟨hcfg, hbm⟩ := ih h
    exact ⟨hcfg.trans (exec_cfg hu), hbm.trans (exec_engine_bm rfl hu)⟩

/-- Settles O52: a unit of `valueToDisplay` looks at the parameters and the bitmaps only, and ticks write neither. -/
theorem ticksBetweenWritesLeaveTheDigitsAlone : Obligations.TicksBetweenWritesLeaveTheDigitsAlone := by
  unfold Obligations.TicksBetweenWritesLeaveTheDigitsAlone
  intro s t n count j h
  obtain ⟨hcfg, hbm⟩ := ticks_frame h
  obtain ⟨hjob, hcells⟩ := displayUnits_congr count j hcfg hbm
  exact ⟨hjob, fun p => by rw [State.cell, State.cell, hcells]⟩

/-! ### Showing -/

/-- A tick from a digit is the transition to the next one. -/
theorem exec_advance_moveTo (hready : s.ready) (hcur : s.cur = .showing d) :
    exec .advance s = .next ((s.moveTo ((d + 1) % s.cfg.digits)).returns .done) :=
  (exec_advance_of_showing hcur).trans (execAdvanceToDigit_of_ready s hready _)

theorem cur_moveTo_next (hpos : 0 < s.cfg.digits) : (s.moveTo ((d + 1) % s.cfg.digits)).cur = .showing ((d + 1) % s.cfg.digits) :=
  s.targetState_of_lt (Nat.mod_lt _ hpos)

theorem succ_mod_add_mod (N : Nat) : ((d + 1) % N + k) % N = (d + (k + 1)) % N := by
  rw [Nat.mod_add_mod, Nat.add_right_comm, Nat.add_assoc]

/-- Settles O53: each tick completes and steps to the next digit. -/
theorem ticksVisitTheDigitsInOrder : Obligations.TicksVisitTheDigitsInOrder := by
  unfold Obligations.TicksVisitTheDigitsInOrder
  intro s d k hready hcur hlt
  induction k generalizing s d with
  | zero => exact ⟨s, rfl, by rw [Nat.add_zero, Nat.mod_eq_of_lt hlt, hcur]⟩
  | succ k ih =>
    have hpos : 0 < s.cfg.digits := by omega
    obtain ⟨t, hticks, ht⟩ := ih ((s.moveTo ((d + 1) % s.cfg.digits)).returns .done) ((d + 1) % s.cfg.digits) (by simpa using hready)
      (cur_moveTo_next hpos) (by simpa using Nat.mod_lt _ hpos)
    refine ⟨t, (ticks_succ (exec_advance_moveTo hready hcur) k).trans hticks, ?_⟩
    rw [ht, State.returns_cfg, State.moveTo_cfg, succ_mod_add_mod]

/-- On two digits or more the next digit is another one. -/
theorem succ_mod_ne {N : Nat} (h2 : 2 ≤ N) (hlt : d < N) : (d + 1) % N ≠ d := by
  rw [succ_mod_eq hlt]
  split <;> omega

/-- Settles O54: the last tick steps to another digit, from a consistent and safe state with the bitmaps the ticks began with. -/
theorem everyTickShowsItsDigitsBitmap : Obligations.EveryTickShowsItsDigitsBitmap := by
  unfold Obligations.EveryTickShowsItsDigitsBitmap
  intro s d k hcons hsafe hready hcur h2 hk
  induction k generalizing s d with
  | zero => omega
  | succ k ih =>
    have hpos : 0 < s.cfg.digits := by omega
    have hlt : d < s.cfg.digits := by simpa [hcur, Cur.legal] using hcons.current
    have htick := exec_advance_moveTo hready hcur
    have hnext : (s.moveTo ((d + 1) % s.cfg.digits)).cur = .showing ((d + 1) % s.cfg.digits) := cur_moveTo_next hpos
    rcases Nat.eq_zero_or_pos k with rfl | hk'
    · have hne : s.cur ≠ .showing ((d + 1) % s.cfg.digits) := by simpa [hcur] using (succ_mod_ne h2 hlt).symm
      obtain ⟨hon, himage⟩ := State.shows_moveTo hcons.hardware hsafe hready.1 (Nat.mod_lt _ hpos) hne
      exact ⟨_, ticks_succ htick 0, hnext, hon, himage⟩
    · obtain ⟨t, hticks, ht, hon, himage⟩ := ih ((s.moveTo ((d + 1) % s.cfg.digits)).returns .done) ((d + 1) % s.cfg.digits)
        (hcons.exec htick) (hsafe.exec hcons.hardware htick) (by simpa using hready) hnext (by simpa using h2) hk'
      refine ⟨t, (ticks_succ htick k).trans hticks, ?_⟩
      rw [State.returns_cfg, State.moveTo_cfg, succ_mod_add_mod] at ht hon himage
      exact ⟨ht, hon, by simpa [State.cell] using himage⟩

/-! ### One digit -/

/-- Where each segment line has the level it had, the segment image is as it was. -/
theorem State.segmentImage_congr (hcfg : t.cfg = s.cfg) (hspin : t.spin = s.spin)
    (hlevel : ∀ (k : Nat) (x : PinId), s.spin[k]? = some x → t.level x = s.level x) : t.segmentImage = s.segmentImage := by
  have hlit : ∀ k, t.segmentLit k = s.segmentLit k := fun k => by
    rw [State.segmentLit, State.segmentLit, hspin, hcfg]
    split
    · rename_i x hx
      rw [hlevel k x hx]
    · rfl
  simp only [State.segmentImage, hcfg, hlit]

/-- A transition to the digit already showing leaves the segment image alone (R121). -/
theorem State.segmentImage_moveTo_same (hpins : PinMapLegal s.cfg s.dpin s.spin) (hcur : s.cur = .showing d) (hlt : d < s.cfg.digits) :
    (s.moveTo d).segmentImage = s.segmentImage := by
  refine State.segmentImage_congr (s.moveTo_cfg d) (s.moveTo_spin d) fun k x hx => ?_
  calc (s.moveTo d).level x
      = (s.emitAll (s.enterEvents d)).level x := by
        rw [State.enterEvents_of_lt hlt, ← State.transitionEvents_of_same hcur hlt]
        rfl
    _ = s.level x := State.level_emitAll_enterEvents hpins hx s d

/-- `setBlank(true)` blanks a ready display. -/
theorem exec_setBlank_true (hready : s.ready) : exec (.setBlank true) s = .next ((s.moveTo s.blankTarget).returns .done) :=
  execSetBlank_of_ready s hready true

/-- Settles O55: on one digit a tick stays on it; from Blanked the step to it rewrites the segments. -/
theorem oneDigitDisplayIsRefreshedOnlyThroughBlanked : Obligations.OneDigitDisplayIsRefreshedOnlyThroughBlanked := by
  unfold Obligations.OneDigitDisplayIsRefreshedOnlyThroughBlanked
  refine ⟨fun s k hcons hready hcur hone => ?ticks, fun s hcons hsafe hready hone => ?blank⟩
  case ticks =>
    induction k generalizing s with
    | zero => exact ⟨s, rfl, hcur, rfl⟩
    | succ k ih =>
      have hsame : (0 + 1) % s.cfg.digits = 0 := by rw [hone]
      have htick := exec_advance_moveTo hready hcur
      rw [hsame] at htick
      obtain ⟨t, hticks, ht, himage⟩ := ih ((s.moveTo 0).returns .done) (hcons.exec htick) (by simpa using hready)
        (s.targetState_of_lt (by omega)) (by simpa using hone)
      refine ⟨t, (ticks_succ htick k).trans hticks, ht, himage.trans ?_⟩
      exact State.segmentImage_moveTo_same (hcons.pinMap hready.1) hcur (by omega)
  case blank =>
    have hblank := exec_setBlank_true hready
    have hcons' := hcons.exec hblank
    have hsafe' := hsafe.exec hcons.hardware hblank
    have hready' : ((s.moveTo s.blankTarget).returns .done).ready := by simpa using hready
    have hpos : 0 < ((s.moveTo s.blankTarget).returns .done).cfg.digits := by simp [hone]
    obtain ⟨hon, himage⟩ := State.shows_moveTo hcons'.hardware hsafe' hready'.1 hpos (by simp)
    refine ⟨_, _, hblank, execSetBlank_of_ready _ hready' false, ?_, hon⟩
    refine himage.trans ?_
    rw [State.returns_cfg, State.moveTo_cfg, State.cell, State.cell, State.returns_bm, State.moveTo_bm]

/-! ### Blanked -/

/-- Settles O56: each tick in Blanked leaves nothing but its result. -/
theorem ticksDoNothingInBlanked : Obligations.TicksDoNothingInBlanked := by
  unfold Obligations.TicksDoNothingInBlanked
  intro s k hready hcur hk
  induction k generalizing s with
  | zero => omega
  | succ k ih =>
    rw [ticks_succ (exec_advance_of_blanked hready hcur)]
    rcases Nat.eq_zero_or_pos k with rfl | hk'
    · rfl
    · exact ih (s.returns .done) (by simpa using hready) hcur hk'

end

end Sys2Proof.Machine
